-- ==== Sys2Proof/Word.lean ====
section
/-!
DEFINITION. The word types. A register is 32 bits (10_state.md R20, R44); bit 0 is the least significant
bit (00_scope.md section 5.1; PRESUMED, log 22).
-/

namespace Sys2Proof

/-- A 32-bit register, address or instruction word. -/
abbrev Word := BitVec 32

/-- A 16-bit halfword of a T32 instruction (30_encoding.md R64). -/
abbrev Half := BitVec 16

/-- One byte of the environment's instruction bytes. -/
abbrev Byte := BitVec 8

/-- A one-bit field, as the spec's inputs of type "bit" (10_state.md R43). -/
abbrev Bit := BitVec 1

end Sys2Proof
end

