-- ==== Sys2Proof/Syntax.lean ====
section
/-!
DEFINITION. The instructions: one constructor for each row of opcode_table.json (30_encoding.md R69), and the
record `SysRegAccess` on which the source defines them (30_encoding.md R62).
-/

namespace Sys2Proof

/-- The two AArch32 instruction sets (30_encoding.md R63, R64). -/
inductive InstrSet where
  | a32
  | t32
deriving DecidableEq, Repr

/-- `dir` of 30_encoding.md R62: `Read` for `MRC`, `Write` for `MCR`. -/
inductive Dir where
  | read
  | write
deriving DecidableEq, Repr

/-- A System register access as the source defines it (30_encoding.md R62). -/
structure SysRegAccess where
  dir : Dir
  /-- The `{<c>}`, consumed only through `env.ConditionPassed` (R66). -/
  cond : BitVec 4
  coproc : BitVec 4
  opc1 : BitVec 3
  /-- `t`, the general-purpose register transferred (R67). -/
  rt : BitVec 4
  crn : BitVec 4
  crm : BitVec 4
  opc2 : BitVec 3
deriving DecidableEq, Repr

/-- The four rows of opcode_table.json. The five values of R61 are constant and stand in the encoding;
`cond` and `rt` are the free operands (R61). A T32 instruction has no condition field (R64). -/
inductive Instr where
  /-- `MRC{<c>}{<q>} p15, 0, <Rt>, c1, c3, 1` in A32 (R80). -/
  | mrcA32 (cond rt : BitVec 4)
  /-- `MCR{<c>}{<q>} p15, 0, <Rt>, c1, c3, 1` in A32 (R81). -/
  | mcrA32 (cond rt : BitVec 4)
  /-- `MRC{<q>} p15, 0, <Rt>, c1, c3, 1` in T32 (R80). -/
  | mrcT32 (rt : BitVec 4)
  /-- `MCR{<q>} p15, 0, <Rt>, c1, c3, 1` in T32 (R81). -/
  | mcrT32 (rt : BitVec 4)
deriving DecidableEq, Repr

/-- The instruction set an instruction belongs to. -/
def Instr.instrSet : Instr → InstrSet
  | .mrcA32 _ _ => .a32
  | .mcrA32 _ _ => .a32
  | .mrcT32 _ => .t32
  | .mcrT32 _ => .t32

/-- The direction of the transfer (30_encoding.md R62). -/
def Instr.dir : Instr → Dir
  | .mrcA32 _ _ => .read
  | .mcrA32 _ _ => .write
  | .mrcT32 _ => .read
  | .mcrT32 _ => .write

/-- The `Rt` field (30_encoding.md R67). -/
def Instr.rt : Instr → BitVec 4
  | .mrcA32 _ rt => rt
  | .mcrA32 _ rt => rt
  | .mrcT32 rt => rt
  | .mcrT32 rt => rt

end Sys2Proof
end

