-- ==== Sys2Proof/WellFormed.lean ====
section
/-!
DEFINITION. Which instruction terms are instructions of the spec (30_encoding.md R70): every `Rt` from 0 to 14,
and in A32 every `cond` but `0b1111`.
-/

namespace Sys2Proof

/-- `Rt` names one of `x[0]` to `x[14]` (30_encoding.md R67, 10_state.md R44). -/
def rtOk (rt : BitVec 4) : Bool := rt != 15#4

/-- `cond = 0b1111` is not a condition (30_encoding.md R63). -/
def condOk (cond : BitVec 4) : Bool := cond != 15#4

/-- The well-formed instructions (30_encoding.md R70). -/
def Instr.wf : Instr → Bool
  | .mrcA32 cond rt => condOk cond && rtOk rt
  | .mcrA32 cond rt => condOk cond && rtOk rt
  | .mrcT32 rt => rtOk rt
  | .mcrT32 rt => rtOk rt

end Sys2Proof
end

