-- ==== Sys2Proof/Decode.lean ====
section
/-!
DEFINITION. The decoder and the encoder: words (30_encoding.md R63 to R65, R71; the bit layout is PRESUMED,
log 6), the byte layer in front of them (20_memory.md R53; PRESUMED, log 4), and the record of R62 between.
-/

namespace Sys2Proof

/-- Why bytes or a word are no instruction of the spec. -/
inductive DecodeError where
  /-- Fewer than four bytes were given (30_encoding.md R72: both instructions are 4 bytes long). -/
  | truncated
  /-- `Refused(not_SDCR)` of 30_encoding.md R71. -/
  | notSDCR
  /-- `Refused(Rt_is_15)` of 30_encoding.md R67. -/
  | rtIs15
deriving DecidableEq, Repr

/-- `coproc` of SDCR (30_encoding.md R61). -/
def sdcrCoproc : BitVec 4 := 0b1111#4
/-- `opc1` of SDCR (30_encoding.md R61). -/
def sdcrOpc1 : BitVec 3 := 0b000#3
/-- `CRn` of SDCR (30_encoding.md R61). -/
def sdcrCRn : BitVec 4 := 0b0001#4
/-- `CRm` of SDCR (30_encoding.md R61). -/
def sdcrCRm : BitVec 4 := 0b0011#4
/-- `opc2` of SDCR (30_encoding.md R61). -/
def sdcrOpc2 : BitVec 3 := 0b001#3
/-- `cond = 0b1110`, always (30_encoding.md R65). -/
def condAlways : BitVec 4 := 0b1110#4

/-- `SelectsSDCR(i)` of 30_encoding.md R62. -/
def SysRegAccess.selectsSDCR (r : SysRegAccess) : Bool :=
  r.coproc == sdcrCoproc && r.opc1 == sdcrOpc1 && r.crn == sdcrCRn
    && r.crm == sdcrCRm && r.opc2 == sdcrOpc2

/-- The record with the five values of R61. -/
def sdcrRecord (dir : Dir) (cond rt : BitVec 4) : SysRegAccess where
  dir := dir
  cond := cond
  coproc := sdcrCoproc
  opc1 := sdcrOpc1
  rt := rt
  crn := sdcrCRn
  crm := sdcrCRm
  opc2 := sdcrOpc2

/-- The record an instruction stands for (30_encoding.md R62). A T32 instruction has bits [31:28] fixed to
`1110` in place of `cond` (R64). -/
def Instr.toRecord : Instr → SysRegAccess
  | .mrcA32 cond rt => sdcrRecord .read cond rt
  | .mcrA32 cond rt => sdcrRecord .write cond rt
  | .mrcT32 rt => sdcrRecord .read condAlways rt
  | .mcrT32 rt => sdcrRecord .write condAlways rt

/-- Whether bits [31:28] may begin an `MRC` or `MCR` of the set: any `cond` but `0b1111` in A32 (R63), `1110`
in T32 (R64). -/
def topBitsOk : InstrSet → BitVec 4 → Bool
  | .a32, cond => condOk cond
  | .t32, top => top == condAlways

/-- The fields of an `MRC` or `MCR` word (30_encoding.md R63, R64): bits [27:24] are `1110`, bit [4] is 1,
`L` is bit [20]. Any other word is no System register access of that layout. -/
def decodeRecord (set : InstrSet) (w : Word) : Except DecodeError SysRegAccess :=
  if topBitsOk set (w.extractLsb' 28 4) && w.extractLsb' 24 4 == 0b1110#4 && w.extractLsb' 4 1 == 1#1 then
    .ok
      { dir := if w.extractLsb' 20 1 == 1#1 then .read else .write
        cond := w.extractLsb' 28 4
        coproc := w.extractLsb' 8 4
        opc1 := w.extractLsb' 21 3
        rt := w.extractLsb' 12 4
        crn := w.extractLsb' 16 4
        crm := w.extractLsb' 0 4
        opc2 := w.extractLsb' 5 3 }
  else .error .notSDCR

/-- The instruction of the set with the direction, condition and `Rt` given. -/
def instrOf : InstrSet → Dir → BitVec 4 → BitVec 4 → Instr
  | .a32, .read, cond, rt => .mrcA32 cond rt
  | .a32, .write, cond, rt => .mcrA32 cond rt
  | .t32, .read, _, rt => .mrcT32 rt
  | .t32, .write, _, rt => .mcrT32 rt

/-- The instruction a record is, in a set: R62 and R71 (`not_SDCR`), R67 (`Rt_is_15`). -/
def recordInstr (set : InstrSet) (r : SysRegAccess) : Except DecodeError Instr :=
  if !r.selectsSDCR then .error .notSDCR
  else if !rtOk r.rt then .error .rtIs15
  else .ok (instrOf set r.dir r.cond r.rt)

/-- The word decoder, total (30_encoding.md R71). -/
def decodeWord (set : InstrSet) (w : Word) : Except DecodeError Instr :=
  match decodeRecord set w with
  | .ok r => recordInstr set r
  | .error e => .error e

/-- The 32-bit word that four instruction bytes make, lowest address first (20_memory.md R53): one little-endian
word in A32, two little-endian halfwords in T32, the first halfword in bits [31:16] (30_encoding.md R64). -/
def wordOfBytes : InstrSet → Byte → Byte → Byte → Byte → Word
  | .a32, b0, b1, b2, b3 => b3 ++ b2 ++ b1 ++ b0
  | .t32, b0, b1, b2, b3 => b1 ++ b0 ++ b3 ++ b2

/-- The four bytes of an instruction word, lowest address first: the inverse of `wordOfBytes`. -/
def bytesOfWord : InstrSet → Word → List Byte
  | .a32, w => [w.extractLsb' 0 8, w.extractLsb' 8 8, w.extractLsb' 16 8, w.extractLsb' 24 8]
  | .t32, w => [w.extractLsb' 16 8, w.extractLsb' 24 8, w.extractLsb' 0 8, w.extractLsb' 8 8]

/-- The decoder over instruction bytes: the instruction, and the bytes after its four (30_encoding.md R72). -/
def decode (set : InstrSet) : List Byte → Except DecodeError (Instr × List Byte)
  | b0 :: b1 :: b2 :: b3 :: rest =>
    match decodeWord set (wordOfBytes set b0 b1 b2 b3) with
    | .ok i => .ok (i, rest)
    | .error e => .error e
  | _ => .error .truncated

/-! ### The encoder -/

/-- The word of a record in the layout of 30_encoding.md R63. -/
def encodeRecord (r : SysRegAccess) : Word :=
  r.cond ++ 0b1110#4 ++ r.opc1 ++ (match r.dir with | .read => 1#1 | .write => 0#1)
    ++ r.crn ++ r.rt ++ r.coproc ++ r.opc2 ++ 1#1 ++ r.crm

/-- The word of an instruction (30_encoding.md R63, R64). -/
def encodeWord (i : Instr) : Word := encodeRecord i.toRecord

/-- The bytes of an instruction, lowest address first (20_memory.md R53). -/
def encode (i : Instr) : List Byte := bytesOfWord i.instrSet (encodeWord i)

/-! ### The host's view of a word of the opcode table -/

/-- The instruction word of a table row: the bits above `nbits` are 0. -/
def tableWord (nbits w : Nat) : Word := (BitVec.ofNat nbits w).setWidth 32

/-- The instruction set in which a table word is read: T32 where its top four bits are those of the T32 rows,
else A32. A word with top bits `1110` is of both (30_encoding.md R65); the two readings have one effect
(DESIGN CHOICE, log 5). -/
def tableSet (w : Word) : InstrSet :=
  if w.extractLsb' 28 4 == condAlways then .t32 else .a32

/-- The instruction the decoder reads from a table word (opcode_table.json numbers bits as one 32-bit value). -/
def decodeTableWord (nbits w : Nat) : Option Instr :=
  let word := tableWord nbits w
  match decode (tableSet word) (bytesOfWord (tableSet word) word) with
  | .ok (i, _) => some i
  | .error _ => none

end Sys2Proof
end

