-- ==== Sys2Proof/Config.lean ====
section
/-!
DEFINITION. What one implementation fixes (00_scope.md R5), and the free values (`draw(T)` of
00_scope.md section 5.2). No value of a parameter is fixed by the source; the named configurations are those
of 95_test_vectors.md.
-/

namespace Sys2Proof

/-- The implementation parameters of 00_scope.md R5, and `haveEL2`, which 92_eei_decisions.md D8 needs
(log 12). Every combination is admitted (D27). -/
structure Config where
  /-- `HAVE_EL3`: EL3 is implemented. -/
  haveEL3 : Bool
  /-- `EL3_AARCH32`: EL3 is using AArch32, fixed from reset (10_state.md R43). -/
  el3AArch32 : Bool
  /-- EL2 is implemented. Not in R5 (DESIGN CHOICE, log 12). -/
  haveEL2 : Bool
  /-- `FEAT_PMU_8_5`: ARMv8.5-PMU. -/
  featPMU85 : Bool
  /-- `FEAT_PMUv3`: PMUv3. -/
  featPMUv3 : Bool
  /-- `PMU_EXT_DEBUG_IF`: the PMU supports external debug interface accesses (D24). -/
  pmuExtDebugIf : Bool
  /-- `FEAT_DEBUG_8_2`: ARMv8.2-Debug. -/
  featDebug82 : Bool
  /-- `FEAT_DEBUG_8_4`: ARMv8.4-Debug. -/
  featDebug84 : Bool
  /-- `FEAT_TRACE_8_4`: ARMv8.4-Trace. -/
  featTrace84 : Bool
  /-- `EDAD_COVERS_OSLAR`: the choice of R118 (D23). -/
  edadCoversOSLAR : Bool
  /-- `MAPPED_TO_MDCR_EL3`: R22 (D5). -/
  mappedToMDCREL3 : Bool
  /-- `RES0_STORE_MASK`: the RES0 bits this implementation stores (10_state.md R36, D3). -/
  res0StoreMask : Word
  /-- `SPD_RESERVED_READBACK`: what a read returns in bits [15:14] while SPD holds `0b01`, when the
  implementation fixes it (10_state.md R33, D4). -/
  spdReservedReadback : Option (BitVec 2)
deriving DecidableEq, Repr

/-- The free value of bits [15:14] of a read while SPD holds `0b01` and no read-back is fixed
(10_state.md R33; log 14). The argument is the number of values drawn before. -/
opaque Config.freeSpdReadback : Nat → BitVec 2

/-- The free value a reset leaves in bits the spec gives no reset value (10_state.md R38; log 15). The
argument is the number of values drawn before. -/
opaque Config.freeResetBits : Nat → Word

/-- FULL of 95_test_vectors.md: every option present, no RES0 bit stored, no read-back fixed.
`edadCoversOSLAR`, `mappedToMDCREL3` and `haveEL2` are not given there (DESIGN CHOICE, log 1). -/
def Config.full : Config where
  haveEL3 := true
  el3AArch32 := true
  haveEL2 := true
  featPMU85 := true
  featPMUv3 := true
  pmuExtDebugIf := true
  featDebug82 := true
  featDebug84 := true
  featTrace84 := true
  edadCoversOSLAR := false
  mappedToMDCREL3 := false
  res0StoreMask := 0#32
  spdReservedReadback := none

/-- MIN of 95_test_vectors.md: no option present. -/
def Config.min : Config :=
  { Config.full with
    featPMU85 := false, featPMUv3 := false, pmuExtDebugIf := false,
    featDebug82 := false, featDebug84 := false, featTrace84 := false }

/-- PMU of 95_test_vectors.md: PMUv3 with the external debug interface, nothing newer. -/
def Config.pmu : Config :=
  { Config.min with featPMUv3 := true, pmuExtDebugIf := true }

/-- PMU_NOEXT of 95_test_vectors.md. -/
def Config.pmuNoExt : Config := { Config.min with featPMUv3 := true }

/-- TRACE of 95_test_vectors.md. -/
def Config.trace : Config := { Config.min with featTrace84 := true }

/-- V82 of 95_test_vectors.md. -/
def Config.v82 : Config := { Config.pmu with featDebug82 := true }

end Sys2Proof
end

