-- ==== Sys2Proof/Machine/State.lean ====
section
/-!
DEFINITION. The state, the inputs, the faults and the refusals, and the state right after reset. SDCR's 32 bits
are the whole architectural state of the hardware (10_state.md R20); the rest of State is the environment's
(R43 to R45), the configuration (00_scope.md R5), or the model's own (logs 3, 4, 14, 17).
-/

namespace Sys2Proof.Machine

open Sys2Proof

/-- The Exception levels, the values of `PSTATE.EL` (60_exceptions.md R110). -/
inductive EL where
  | el0
  | el1
  | el2
  | el3
deriving DecidableEq, Repr

/-- The levels of a one-bit input signal (00_scope.md section 5.1). -/
inductive Level where
  | low
  | high
deriving DecidableEq, Repr

/-- The environment inputs of 10_state.md R43, sampled once when a rule is evaluated (70_reset_and_hazards.md
R147), under no law relating one to another (92_eei_decisions.md D6). -/
structure Env where
  /-- `PSTATE.EL`. -/
  el : EL
  /-- `EL2Enabled()`. -/
  el2Enabled : Bool
  /-- `ELUsingAArch32(EL2)`. -/
  el2AArch32 : Bool
  /-- `HSTR_EL2.T1`. -/
  hstrEL2T1 : Bit
  /-- `HSTR.T1`. -/
  hstrT1 : Bit
  /-- `SCR_EL3.NS`. -/
  scrEL3NS : Bit
  /-- `SCR_EL3.EEL2`. -/
  scrEL3EEL2 : Bit
  /-- `SCR.NS`. -/
  scrNS : Bit
  /-- The input signal `CP15SDISABLE2`. -/
  cp15sdisable2 : Level
  /-- Whether the `{<c>}` passes (30_encoding.md R66). -/
  conditionPassed : Bool
  /-- "in Secure state". -/
  isSecure : Bool
  /-- "in Monitor mode". -/
  inMonitorMode : Bool
  /-- `SDER32_EL3.SUIDEN`. -/
  suiden : Bit
  /-- `ExternalSecureNoninvasiveDebugEnabled()`. -/
  extSecureNoninvasiveDebugEnabled : Bool
  /-- The authentication interface overrides EPMAD (R114). -/
  authOverrideEPMAD : Bool
  /-- The authentication interface overrides EDAD (R117, R118). -/
  authOverrideEDAD : Bool
  /-- The authentication interface overrides STE (R123). -/
  authOverrideSTE : Bool
  /-- The authentication interface enables debug exceptions from Secure EL1 (R131). -/
  authSecurePrivDebug : Bool
  /-- The PE's instruction set state, which the decoder takes as an argument (30_encoding.md R65). -/
  instrSet : InstrSet
deriving DecidableEq, Repr

/-- The instruction bytes the environment supplies, as (address, byte) pairs (20_memory.md R53; log 4). There is
no data memory (R52). -/
abbrev Memory := List Host.Cell

/-- What happens to the machine from outside between two instructions (log 3). -/
inductive Event where
  /-- A reset of the PE (70_reset_and_hazards.md R140). -/
  | reset
  /-- A Context synchronization event (20_memory.md R57). -/
  | contextSync
  /-- The inputs take new values (10_state.md R43). -/
  | inputs (e : Env)
  /-- The environment writes a general register (10_state.md R44; 95_test_vectors.md P2). -/
  | setReg (i : Fin 15) (v : Word)
  /-- The environment moves the pc (10_state.md R45; 95_test_vectors.md P2). -/
  | setPc (v : Word)
  /-- The environment supplies an instruction byte (20_memory.md R53). -/
  | loadByte (a : Word) (b : Byte)
deriving DecidableEq, Repr

/-- One entry of the agenda: the PE executes one instruction, or an event happens. -/
inductive Action where
  | execute
  | event (e : Event)
deriving DecidableEq, Repr

/-- The state of the machine. -/
structure State where
  /-- The configuration (00_scope.md R5); no step changes it (log 1). -/
  cfg : Config
  /-- The 32 stored bits of SDCR (10_state.md R20). -/
  sdcr : Word
  /-- The general-purpose registers `x[0]` to `x[14]` (10_state.md R44). -/
  x : Vector Word 15
  /-- The program counter (10_state.md R45). -/
  pc : Word
  /-- The inputs as they stand (10_state.md R43). -/
  env : Env
  /-- The values SDCR held before the writes since the last Context synchronization event, newest first: the
  premise `SYNCED` of 20_memory.md R57 says that there is none (the model's own field, log 17). -/
  unsynced : List Word
  /-- How many free values have been drawn (the model's own field, logs 14 and 15). -/
  draws : Nat
  /-- The instruction bytes the environment supplies (log 4). -/
  code : Memory
  /-- What happens next, oldest first; when it is empty the PE executes (the model's own field, log 3). -/
  agenda : List Action
deriving DecidableEq, Repr

/-- The faults: the outcomes of 00_scope.md section 5.3 that are exceptions. Each is terminal and writes nothing
(60_exceptions.md R106; log 13). -/
inductive Fault where
  /-- The source's `UNDEFINED` (R100). Raised by `MRC` and `MCR` at EL0, EL2 and EL1 arm 5, and by `MCR` at EL3
  with `SCR.NS == 0` and `CP15SDISABLE2` HIGH. Safe: the run ends where the PE enters a handler. -/
  | undefined
  /-- The source's `AArch64.AArch32SystemAccessTrap(target, ec)` (R101, R102). Raised by `MRC` and `MCR` at EL1,
  arms 1, 3 and 4 of R82. Safe, as above. -/
  | systemAccessTrap (target : EL) (ec : Nat)
  /-- The source's `AArch32.TakeHypTrapException(ec)` (R103). Raised by `MRC` and `MCR` at EL1, arm 2 of R82.
  Safe, as above. -/
  | hypTrap (ec : Nat)
deriving DecidableEq, Repr

/-- The refusals: the spec gives the step no meaning (00_scope.md section 5.3, `Refused(reason)`). All are safe:
no claim about a run that reaches one can be proved. -/
inductive Refusal where
  /-- Raised by an arm of `exec` whose instruction has no meaning yet. No arm is so. -/
  | notModelled (mnemonic : String)
  /-- `Refused(Rt_is_15)` (30_encoding.md R67): raised by `MRC`, `MCR` and the decoder. -/
  | rtIs15
  /-- `Refused(not_SDCR)` (30_encoding.md R71): raised by the decoder, by a record that does not select SDCR, and
  by an A32 form whose `cond` is `0b1111` (R63). -/
  | notSDCR
  /-- `Refused(absent_EL)` (40_sdcr_access.md R82, 92_eei_decisions.md D8): raised by `MRC` and `MCR` at EL1. -/
  | absentEL
  /-- A control output that the configuration does not define (60_exceptions.md R122, R129; D31): raised by the
  questions about STE and SPME, never by a step. -/
  | controlNotDefined
  /-- The environment supplies no instruction at the pc (20_memory.md R53 leaves fetch to it; log 4): raised by
  the fetch. -/
  | noInstruction
deriving DecidableEq, Repr

/-- The inputs in `State.reset`: EL3 as 70_reset_and_hazards.md R142 says; the others are no value of the spec
(DESIGN CHOICE, log 2). -/
def Env.reset : Env where
  el := .el3
  el2Enabled := false
  el2AArch32 := false
  hstrEL2T1 := 0#1
  hstrT1 := 0#1
  scrEL3NS := 0#1
  scrEL3EEL2 := 0#1
  scrNS := 0#1
  cp15sdisable2 := .low
  conditionPassed := true
  isSecure := true
  inMonitorMode := false
  suiden := 0#1
  extSecureNoninvasiveDebugEnabled := false
  authOverrideEPMAD := false
  authOverrideEDAD := false
  authOverrideSTE := false
  authSecurePrivDebug := false
  instrSet := .a32

/-- The machine right after a reset into EL3 using AArch32, configuration FULL (log 1): SDCR reads 0 (10_state.md
R38). The registers and the pc have no reset value in the spec (DESIGN CHOICE 0, logs 7 and 8). -/
def State.reset : State where
  cfg := Config.full
  sdcr := 0#32
  x := Vector.replicate 15 0#32
  pc := 0#32
  env := Env.reset
  unsynced := []
  draws := 0
  code := []
  agenda := []

end Sys2Proof.Machine
end

