-- ==== Sys2Proof/Machine/Fields.lean ====
section
/-!
DEFINITION. SDCR's bit assignment (10_state.md R21, R25 to R33), which description of a field applies (00_scope.md
R6), the masks of R35, and the write and read functions on values (R37, R39).
-/

namespace Sys2Proof.Machine

open Sys2Proof

/-! ### The fields (10_state.md R21) -/

/-- The seven fields of SDCR. -/
inductive Field where
  /-- "Secure Cycle Counter Disable" (R25). -/
  | sccd
  /-- "External debug interface Performance Monitors registers disable" (R26). -/
  | epmad
  /-- "External debug register Non-secure access disable" or "External debug access disable" (R27). -/
  | edad
  /-- "Trap Trace Filter controls" (R28). -/
  | ttrf
  /-- "Secure Trace Enable" (R29). -/
  | ste
  /-- "Secure Performance Monitors enable" (R30). -/
  | spme
  /-- "AArch32 Secure privileged debug" (R31). -/
  | spd
deriving DecidableEq, Repr

/-- The lowest bit of a field (10_state.md R21). -/
def Field.lo : Field → Nat
  | .sccd => 23
  | .epmad => 21
  | .edad => 20
  | .ttrf => 19
  | .ste => 18
  | .spme => 17
  | .spd => 14

/-- The width of a field (10_state.md R21). -/
def Field.width : Field → Nat
  | .spd => 2
  | .sccd | .epmad | .edad | .ttrf | .ste | .spme => 1

/-- The column "Exists when" of 10_state.md R21. -/
def Field.present (cfg : Config) : Field → Bool
  | .sccd => cfg.featPMU85
  | .epmad => cfg.featPMUv3 && cfg.pmuExtDebugIf
  | .edad => true
  | .ttrf => cfg.featTrace84
  | .ste => cfg.featTrace84
  | .spme => cfg.featPMUv3
  | .spd => true

/-- The rows of 10_state.md R21 that are RES0 in every configuration: lowest bit and width. -/
def reservedRows : List (Nat × Nat) := [(24, 8), (22, 1), (16, 1), (0, 14)]

/-- `SDCR.SCCD`, bit [23] (R25). -/
def sccd (w : Word) : Bit := w.extractLsb' 23 1
/-- `SDCR.EPMAD`, bit [21] (R26). -/
def epmad (w : Word) : Bit := w.extractLsb' 21 1
/-- `SDCR.EDAD`, bit [20] (R27). -/
def edad (w : Word) : Bit := w.extractLsb' 20 1
/-- `SDCR.TTRF`, bit [19] (R28). -/
def ttrf (w : Word) : Bit := w.extractLsb' 19 1
/-- `SDCR.STE`, bit [18] (R29). -/
def ste (w : Word) : Bit := w.extractLsb' 18 1
/-- `SDCR.SPME`, bit [17] (R30). -/
def spme (w : Word) : Bit := w.extractLsb' 17 1
/-- `SDCR.SPD`, bits [15:14] (R31). -/
def spd (w : Word) : BitVec 2 := w.extractLsb' 14 2

/-! ### Which description of a field applies: the first whose condition holds (00_scope.md R6) -/

/-- The descriptions of EPMAD, EDAD and SPME, in the source's order; `absent` is "Otherwise: Reserved, RES0." -/
inductive Description where
  | a
  | b
  | c
  | absent
deriving DecidableEq, Repr

/-- EPMAD (10_state.md R26): (a), (b), or RES0, the last also without external debug interface accesses
(90_conflicts.md C5). -/
def epmadDescription (cfg : Config) : Description :=
  if cfg.featDebug84 && cfg.featPMUv3 then (if cfg.pmuExtDebugIf then .a else .absent)
  else if cfg.featPMUv3 then (if cfg.pmuExtDebugIf then .b else .absent)
  else .absent

/-- EDAD (10_state.md R27): it always exists. -/
def edadDescription (cfg : Config) : Description :=
  if cfg.featDebug84 then .a
  else if cfg.featDebug82 then .b
  else .c

/-- SPME (10_state.md R30). -/
def spmeDescription (cfg : Config) : Description :=
  if cfg.featDebug82 && cfg.featPMUv3 then .a
  else if cfg.featPMUv3 then .b
  else .absent

/-! ### The masks (10_state.md R35, R37) -/

/-- `FIXED_RES0`: the bits that are RES0 in every configuration. -/
def fixedRes0 : Word := 0xFF413FFF#32

/-- `WMASK(cfg)`: the bits that hold a field. -/
def wmask (cfg : Config) : Word :=
  0x0010C000#32
    ||| (if cfg.featPMU85 then 0x00800000#32 else 0#32)
    ||| (if cfg.featPMUv3 && cfg.pmuExtDebugIf then 0x00200000#32 else 0#32)
    ||| (if cfg.featTrace84 then 0x000C0000#32 else 0#32)
    ||| (if cfg.featPMUv3 then 0x00020000#32 else 0#32)

/-- `RES0MASK(cfg)`: the bits that are RES0. -/
def res0mask (cfg : Config) : Word := ~~~ wmask cfg

/-- `STORED(cfg)`: the bits that keep what is written (R36, R37). -/
def stored (cfg : Config) : Word := wmask cfg ||| cfg.res0StoreMask

/-- `RES0_STORE_MASK` is a subset of the RES0 bits (00_scope.md R5, 10_state.md R36). -/
def Config.wf (cfg : Config) : Bool := cfg.res0StoreMask &&& wmask cfg == 0#32

/-- The value a write of `v` leaves in SDCR (10_state.md R37). -/
def writeValue (cfg : Config) (v : Word) : Word := v &&& stored cfg

/-- `w` with bits [15:14] replaced by `b` (10_state.md R39). -/
def withSpd (w : Word) (b : BitVec 2) : Word := (w &&& ~~~ 0x0000C000#32) ||| (b.zeroExtend 32 <<< 14)

/-- The bits a reset leaves unspecified (10_state.md R38): the fields, unless the PE resets into EL3 using AArch32,
and the stored RES0 bits in every configuration. -/
def resetDrawMask (cfg : Config) : Word :=
  (if cfg.haveEL3 && cfg.el3AArch32 then 0#32 else wmask cfg) ||| (cfg.res0StoreMask &&& res0mask cfg)

end Sys2Proof.Machine
end

