-- ==== Sys2Proof/Machine/Ops.lean ====
section
/-!
DEFINITION. The named operations: registers, pc, SDCR's read, write and reset, raising an outcome, the instruction
bytes, and what each event does.
-/

namespace Sys2Proof.Machine

open Sys2Proof

/-- The outcome of a step of this machine. -/
abbrev Result := Host.Outcome State Fault Refusal

/-! ### General registers and pc -/

/-- `x[i]` (00_scope.md section 5.2, 10_state.md R44). -/
def State.getReg (s : State) (i : Fin 15) : Word := s.x[i]

/-- `x[i] <- v`. -/
def State.setReg (s : State) (i : Fin 15) (v : Word) : State := { s with x := s.x.set i v }

/-- `pc <- pc + 4`, modulo 2^32 (10_state.md R45, 30_encoding.md R72). -/
def State.advancePc (s : State) : State := { s with pc := s.pc + 4#32 }

/-! ### Outcomes -/

/-- `raise <Outcome>(info)` (00_scope.md section 5.2): the instruction ends with the outcome instead of completing,
and nothing is written (60_exceptions.md R106). The source gives no entry sequence: what is saved, where control
goes and which mode is set are not in it, and the run ends there (D7; log 13). There is no return (R107). -/
def raise (f : Fault) (_s : State) : Result := .fault f

/-- The target Exception level an outcome carries (60_exceptions.md R101 to R103, R106); `Undefined` has none
(R100, D25). -/
def Fault.target : Fault → Option EL
  | .undefined => none
  | .systemAccessTrap target _ => some target
  | .hypTrap _ => some .el2

/-- Whether the target level is using AArch32: a System access trap goes to a level using AArch64, a Hyp trap to EL2
using AArch32 (60_exceptions.md R101 to R103); `Undefined` has no target. -/
def Fault.targetUsesAArch32 : Fault → Option Bool
  | .undefined => none
  | .systemAccessTrap _ _ => some false
  | .hypTrap _ => some true

/-- The code an outcome carries (60_exceptions.md summary table); `Undefined` has none. -/
def Fault.code : Fault → Option Nat
  | .undefined => none
  | .systemAccessTrap _ ec => some ec
  | .hypTrap ec => some ec

/-- The code `0x03` of both traps (60_exceptions.md R101 to R103). -/
def trapCode : Nat := 0x03

/-- The refusal a decode error is. -/
def refusalOfDecode : DecodeError → Refusal
  | .truncated => .noInstruction
  | .notSDCR => .notSDCR
  | .rtIs15 => .rtIs15

/-! ### SDCR -/

/-- `ReadSDCR()` (10_state.md R39, R33). Only the count of draws can change, and only where the read draws
(log 14). -/
def State.readSDCR (s : State) : Word × State :=
  if spd s.sdcr = 0b01#2 then
    match s.cfg.spdReservedReadback with
    | some b => (withSpd s.sdcr b, s)
    | none => (withSpd s.sdcr (Config.freeSpdReadback s.draws), { s with draws := s.draws + 1 })
  else (s.sdcr, s)

/-- `SDCR <- v & STORED(cfg)` (10_state.md R37). The old value may still be acted on until the next Context
synchronization event (20_memory.md R57; log 17). -/
def State.writeSDCR (s : State) (v : Word) : State :=
  { s with sdcr := writeValue s.cfg v, unsynced := s.sdcr :: s.unsynced }

/-- The Exception level the PE resets into: the highest it implements (70_reset_and_hazards.md R142; PRESUMED there,
GK21). That a PE with neither EL3 nor EL2 resets into EL1 is PRESUMED (log 24). -/
def resetLevel (cfg : Config) : EL :=
  if cfg.haveEL3 then .el3
  else if cfg.haveEL2 then .el2
  else .el1

/-- The value SDCR takes at a reset, and the count of draws after it (10_state.md R38; the unspecified bits are drawn,
log 15). -/
def State.resetSDCR (s : State) : Word × Nat :=
  if resetDrawMask s.cfg = 0#32 then (0#32, s.draws)
  else (Config.freeResetBits s.draws &&& resetDrawMask s.cfg, s.draws + 1)

/-- The reset step (70_reset_and_hazards.md R140, R142): SDCR takes its reset value, the PE is at the level it resets
into, and nothing else changes (log 24). No older value of SDCR is acted on after it (R141; log 17). -/
def State.applyReset (s : State) : State :=
  let (v, n) := s.resetSDCR
  { s with sdcr := v, unsynced := [], draws := n, env := { s.env with el := resetLevel s.cfg } }

/-- A Context synchronization event: every write takes effect (20_memory.md R57). -/
def State.sync (s : State) : State := { s with unsynced := [] }

/-- The premise `SYNCED` (20_memory.md R57): such an event has happened since the last write. -/
def State.synced (s : State) : Bool := s.unsynced.isEmpty

/-- The values of SDCR by which the hardware that reads its fields may act: the stored one, and, before
synchronization, the older ones (20_memory.md R57). -/
def State.observable (s : State) : List Word := s.sdcr :: s.unsynced

/-- `MDCR_EL3[31:0]` where SDCR is mapped to it: one piece of storage (10_state.md R22; log 19). -/
def State.mdcrEL3Low (s : State) : Option Word :=
  if s.cfg.mappedToMDCREL3 then some s.sdcr else none

/-! ### Instruction bytes -/

/-- `MemRead(addr, 1)` on the instruction bytes; an address nobody supplied reads as no value (log 4). -/
def Memory.get : Memory → Nat → Option Byte
  | [], _ => none
  | (k, b) :: rest, a => if k = a then some b else Memory.get rest a

/-- `MemWrite(addr, 1, b)` on the instruction bytes, kept in rising order of address. -/
def Memory.set : Memory → Nat → Byte → Memory
  | [], a, b => [(a, b)]
  | (k, c) :: rest, a, b =>
    if a < k then (a, b) :: (k, c) :: rest
    else if a = k then (a, b) :: rest
    else (k, c) :: Memory.set rest a b

/-- The canonical form: addresses strictly rising, each below 2^32. An unlisted address reads as no value, so no
entry can repeat what it would read unlisted. -/
abbrev Memory.wf (m : Memory) : Prop :=
  m.Pairwise (fun p q => p.1 < q.1) ∧ ∀ p ∈ m, p.1 < 0x100000000

/-- `MemWrite` of a list of bytes from an address on, wrapping modulo 2^32. -/
def Memory.setBytes : Memory → Word → List Byte → Memory
  | m, _, [] => m
  | m, a, b :: bs => Memory.setBytes (Memory.set m a.toNat b) (a + 1#32) bs

/-- `MemRead` of `n` bytes from an address on, wrapping modulo 2^32; no value where one byte has none. -/
def Memory.getBytes (m : Memory) : Word → Nat → Option (List Byte)
  | _, 0 => some []
  | a, n + 1 =>
    match Memory.get m a.toNat, Memory.getBytes m (a + 1#32) n with
    | some b, some bs => some (b :: bs)
    | _, _ => none

/-- The instruction at the pc, in the current instruction set (20_memory.md R53, 30_encoding.md R71, R72), or the
reason there is none. -/
def State.fetch (s : State) : Except Refusal Instr :=
  match Memory.getBytes s.code s.pc 4 with
  | none => .error .noInstruction
  | some bytes =>
    match decode s.env.instrSet bytes with
    | .ok (i, _) => .ok i
    | .error e => .error (refusalOfDecode e)

/-! ### Events -/

/-- What an event does to the state. Only a reset changes SDCR (10_state.md R23, R107): a change of the inputs,
`CP15SDISABLE2` among them, never does (70_reset_and_hazards.md R147). -/
def State.applyEvent (s : State) : Event → State
  | .reset => s.applyReset
  | .contextSync => s.sync
  | .inputs e => { s with env := e }
  | .setReg i v => s.setReg i v
  | .setPc v => { s with pc := v }
  | .loadByte a b => { s with code := Memory.set s.code a.toNat b }

end Sys2Proof.Machine
end

