-- ==== Sys2Proof/Machine/Flags.lean ====
section
/-!
DEFINITION. Conditions. No instruction of this hardware reads or writes a condition flag (10_state.md R46): whether
the `{<c>}` passes is an input, and the four bits of `cond` are consumed only through it (30_encoding.md R62, R66;
log 11).
-/

namespace Sys2Proof.Machine

open Sys2Proof

/-- `env.ConditionPassed` (30_encoding.md R66). -/
def conditionPassed (env : Env) : Bool := env.conditionPassed

end Sys2Proof.Machine
end

