-- ==== Sys2Proof/Machine/Operands.lean ====
section
/-!
DEFINITION. The operands: `<Rt>` (30_encoding.md R67), and the assembler's operand list (30_encoding.md R60, R68).
-/

namespace Sys2Proof.Machine

open Sys2Proof

/-- The register an `Rt` field names: `x[0]` to `x[14]`, none for 15 (30_encoding.md R67, 10_state.md R44). -/
def rtIndex (rt : BitVec 4) : Option (Fin 15) :=
  if h : rt.toNat < 15 then some ⟨rt.toNat, h⟩ else none

/-! ### The assembler's operands (30_encoding.md R60, R68; log 21) -/

/-- One operand as it is written: `p15`, an immediate with or without `#`, `r0`, or `c1`. -/
inductive AsmOperand where
  | coproc (n : BitVec 4)
  | imm (hash : Bool) (n : BitVec 3)
  | gpr (n : BitVec 4)
  | creg (n : BitVec 4)
deriving DecidableEq, Repr

/-- The qualifier `{<q>}`: `.N` or `.W`, with no effect on execution (30_encoding.md R66). -/
inductive Qualifier where
  | n
  | w
deriving DecidableEq, Repr

/-- A line `MRC{<c>}{<q>} …` or `MCR{<c>}{<q>} …` (30_encoding.md R60). -/
structure AsmLine where
  dir : Dir
  cond : Option (BitVec 4)
  qualifier : Option Qualifier
  operands : List AsmOperand
deriving DecidableEq, Repr

/-- The record of an assembler line (30_encoding.md R60, R62): the operands in the order coproc, opc1, Rt, CRn, CRm
and, optionally, opc2. An omitted `<c>` is always, an omitted `<opc2>` is 0 (R66, R68; PRESUMED, log 21). -/
def AsmLine.record (l : AsmLine) : Option SysRegAccess :=
  let build (coproc : BitVec 4) (opc1 : BitVec 3) (rt crn crm : BitVec 4) (opc2 : BitVec 3) : SysRegAccess :=
    { dir := l.dir, cond := l.cond.getD condAlways, coproc, opc1, rt, crn, crm, opc2 }
  match l.operands with
  | [.coproc coproc, .imm _ opc1, .gpr rt, .creg crn, .creg crm] => some (build coproc opc1 rt crn crm 0#3)
  | [.coproc coproc, .imm _ opc1, .gpr rt, .creg crn, .creg crm, .imm _ opc2] =>
    some (build coproc opc1 rt crn crm opc2)
  | _ => none

/-- The instruction an assembler line is in an instruction set: none for a list of operands that is no such line.
`cond = 0b1111` is no condition (30_encoding.md R63). In T32 the condition comes from an enclosing `IT` block and
stands in no field (R64). -/
def AsmLine.instr (set : InstrSet) (l : AsmLine) : Option (Except DecodeError Instr) :=
  l.record.map fun r => if condOk r.cond then recordInstr set r else .error .notSDCR

/-- The line that 30_encoding.md R68 writes for an instruction: `MRC p15, 0, <Rt>, c1, c3, 1` and the same for
`MCR`. -/
def asmOf (i : Instr) : AsmLine where
  dir := i.dir
  cond := match i with
    | .mrcA32 cond _ => some cond
    | .mcrA32 cond _ => some cond
    | .mrcT32 _ => none
    | .mcrT32 _ => none
  qualifier := none
  operands := [.coproc sdcrCoproc, .imm false sdcrOpc1, .gpr i.rt, .creg sdcrCRn, .creg sdcrCRm, .imm false sdcrOpc2]

end Sys2Proof.Machine
end

