-- ==== Sys2Proof/Machine/Access.lean ====
section
/-!
DEFINITION. The System register access family: the checks (40_sdcr_access.md R80 to R82, R88) and the meanings of
`MRC` and `MCR` of SDCR in A32 and in T32.
-/

namespace Sys2Proof.Machine

open Sys2Proof

/-- How an access ends, but for the transfer itself (00_scope.md section 5.3). -/
inductive AccessOutcome where
  /-- The register transfer happens. -/
  | completed
  /-- The condition did not pass: nothing but the pc changes. -/
  | conditionFailed
  /-- The access ends in an exception. -/
  | raised (f : Fault)
  /-- The spec gives the access no meaning. -/
  | refused (r : Refusal)
deriving DecidableEq, Repr

/-! ### Inputs that concern an Exception level the implementation may lack (92_eei_decisions.md D8; log 12) -/

/-- An input about a level: no value where the level is absent. -/
def known (present b : Bool) : Option Bool := if present then some b else none

/-- Negation of an input that may have no value. -/
def notKnown (p : Option Bool) : Option Bool := p.map (!·)

/-- Conjunction: a part that is false settles it, whatever a part without a value would be. -/
def andKnown : Option Bool → Option Bool → Option Bool
  | some false, _ => some false
  | _, some false => some false
  | some true, some true => some true
  | _, _ => none

/-- One arm of the chain in 40_sdcr_access.md R82: taken where its condition holds, passed over where it does not,
and `Refused(absent_EL)` where it needs an input about an absent level. -/
def elifArm (cond : Option Bool) (taken otherwise : AccessOutcome) : AccessOutcome :=
  match cond with
  | some true => taken
  | some false => otherwise
  | none => .refused .absentEL

/-- `EL1Outcome(cfg, env)` (40_sdcr_access.md R82): the arms in the source's order. A trap goes only to a level that
is implemented, since each arm's condition needs an input about its target. -/
def el1Outcome (cfg : Config) (env : Env) : AccessOutcome :=
  let el2AArch32 := known cfg.haveEL2 env.el2AArch32
  let hstrEL2T1 := known cfg.haveEL2 (env.hstrEL2T1 == 1#1)
  let hstrT1 := known cfg.haveEL2 (env.hstrT1 == 1#1)
  let nsIs0 := known cfg.haveEL3 (env.scrEL3NS == 0#1)
  let eel2Is1 := known cfg.haveEL3 (env.scrEL3EEL2 == 1#1)
  let el3AArch32 := known cfg.haveEL3 cfg.el3AArch32
  elifArm (andKnown (some env.el2Enabled) (andKnown (notKnown el2AArch32) hstrEL2T1))
    (.raised (.systemAccessTrap .el2 trapCode))
  <| elifArm (andKnown (some env.el2Enabled) (andKnown el2AArch32 hstrT1))
    (.raised (.hypTrap trapCode))
  <| elifArm (andKnown (notKnown el2AArch32) (andKnown nsIs0 eel2Is1))
    (.raised (.systemAccessTrap .el2 trapCode))
  <| elifArm (andKnown (notKnown el3AArch32) nsIs0)
    (.raised (.systemAccessTrap .el3 trapCode))
  <| .raised .undefined

/-- The check at EL3: a read always completes (R80); a write is `Undefined` when `SCR.NS == 0` and `CP15SDISABLE2`
is HIGH (R81). -/
def el3Outcome (dir : Dir) (env : Env) : AccessOutcome :=
  match dir with
  | .read => .completed
  | .write =>
    if env.scrNS = 0#1 ∧ env.cp15sdisable2 = .high then .raised .undefined else .completed

/-- The chain of 40_sdcr_access.md R80 and R81: the condition first (30_encoding.md R66), then the Exception level,
then the checks inside it (60_exceptions.md R105). -/
def accessOutcome (dir : Dir) (cfg : Config) (env : Env) : AccessOutcome :=
  if !conditionPassed env then .conditionFailed
  else
    match env.el with
    | .el0 => .raised .undefined
    | .el1 => el1Outcome cfg env
    | .el2 => .raised .undefined
    | .el3 => el3Outcome dir env

/-- What an access does to the state, given how it ends and the transfer it makes when it completes. -/
def finishAccess (o : AccessOutcome) (s : State) (transfer : State → State) : Result :=
  match o with
  | .completed => .next (transfer s).advancePc
  | .conditionFailed => .next s.advancePc
  | .raised f => raise f s
  | .refused r => .refused r

/-- `x[t] <- ReadSDCR()` (R80). -/
def readTransfer (t : Fin 15) (s : State) : State :=
  let (v, s') := s.readSDCR
  s'.setReg t v

/-- `SDCR <- x[t] & STORED(cfg)` (R81). -/
def writeTransfer (t : Fin 15) (s : State) : State := s.writeSDCR (s.getReg t)

/-- `MRC` of SDCR (R80), `Rt = 15` refused before anything else. -/
def readAccess (rt : BitVec 4) (s : State) : Result :=
  match rtIndex rt with
  | none => .refused .rtIs15
  | some t => finishAccess (accessOutcome .read s.cfg s.env) s (readTransfer t)

/-- `MCR` of SDCR (R81), `Rt = 15` refused before anything else. -/
def writeAccess (rt : BitVec 4) (s : State) : Result :=
  match rtIndex rt with
  | none => .refused .rtIs15
  | some t => finishAccess (accessOutcome .write s.cfg s.env) s (writeTransfer t)

/-- The step on the record of 30_encoding.md R62: a record that does not select SDCR is refused (R71). -/
def execRecord (r : SysRegAccess) (s : State) : Result :=
  if !r.selectsSDCR then .refused .notSDCR
  else
    match r.dir with
    | .read => readAccess r.rt s
    | .write => writeAccess r.rt s

/-- An A32 form: `cond = 0b1111` is not the instruction of this spec (30_encoding.md R63). -/
def a32Form (cond : BitVec 4) (s : State) (access : State → Result) : Result :=
  if condOk cond then access s else .refused .notSDCR

/-- `MRC` of SDCR in A32 (R80, R63). -/
def execMrcA32 (cond rt : BitVec 4) (s : State) : Result := a32Form cond s (readAccess rt)

/-- `MCR` of SDCR in A32 (R81, R63). -/
def execMcrA32 (cond rt : BitVec 4) (s : State) : Result := a32Form cond s (writeAccess rt)

/-- `MRC` of SDCR in T32 (R80, R64). -/
def execMrcT32 (rt : BitVec 4) (s : State) : Result := readAccess rt s

/-- `MCR` of SDCR in T32 (R81, R64). -/
def execMcrT32 (rt : BitVec 4) (s : State) : Result := writeAccess rt s

end Sys2Proof.Machine
end

