-- ==== Sys2Proof/Machine/Dispatch.lean ====
section
/-! DEFINITION. exec: one arm for each constructor of Instr, each one direct call of its meaning. -/

namespace Sys2Proof.Machine

open Sys2Proof

/-- The meaning of an instruction (opcode_table.json; 40_sdcr_access.md R80, R81). -/
def exec (i : Instr) (s : State) : Host.Outcome State Fault Refusal :=
  match i with
  | .mrcA32 cond rt => Sys2Proof.Machine.execMrcA32 cond rt s
  | .mcrA32 cond rt => Sys2Proof.Machine.execMcrA32 cond rt s
  | .mrcT32 rt => Sys2Proof.Machine.execMrcT32 rt s
  | .mcrT32 rt => Sys2Proof.Machine.execMcrT32 rt s

end Sys2Proof.Machine
end

