-- ==== Sys2Proof/Machine/Step.lean ====
section
/-!
DEFINITION. One step: what the agenda says next, or an instruction where it says nothing (70_reset_and_hazards.md
R148, R150; log 3).
-/

namespace Sys2Proof.Machine

open Sys2Proof

/-- The PE executes the instruction at the pc. -/
def runInstr (s : State) : Host.Outcome State Fault Refusal :=
  match s.fetch with
  | .ok i => exec i s
  | .error r => .refused r

/-- One step of the machine. -/
def step (s : State) : Host.Outcome State Fault Refusal :=
  match s.agenda with
  | [] => runInstr s
  | .execute :: rest => runInstr { s with agenda := rest }
  | .event e :: rest => .next (State.applyEvent { s with agenda := rest } e)

/-- `s` with the instruction of a table word supplied at the pc, in the set `tableSet` reads it in, and its
execution first on the agenda (log 5). -/
def State.withFetchWord (s : State) (nbits w : Nat) : State :=
  let word := tableWord nbits w
  { s with
    env := { s.env with instrSet := tableSet word }
    code := Memory.setBytes s.code s.pc (bytesOfWord (tableSet word) word)
    agenda := .execute :: s.agenda }

end Sys2Proof.Machine
end

