-- ==== Sys2Proof/Machine/Controls.lean ====
section
/-!
DEFINITION. The control outputs (60_exceptions.md part 3): what each field of SDCR makes the rest of the PE do, as
functions of a value of SDCR, the configuration and the inputs. An output is SDCR's contribution only: "prohibited"
is final, "permitted" means that SDCR does not stop it (92_eei_decisions.md D29; log 18). The value is the stored
one under `SYNCED`; without it, any value of `State.observable` (20_memory.md R57; log 17).
-/

namespace Sys2Proof.Machine

open Sys2Proof

/-! ### SCCD (R112) -/

/-- `PMCCNTR_ProhibitedBySCCD` (R112). It never applies to an event counter. -/
def pmccntrProhibitedBySCCD (cfg : Config) (env : Env) (w : Word) : Bool :=
  cfg.featPMU85 && sccd w == 1#1 && env.isSecure

/-! ### EPMAD (R113 to R115) -/

/-- `ExtPMUAccessPermittedBySDCR(access_is_nonsecure)` (R113, R114, R115). -/
def extPMUAccessPermittedBySDCR (cfg : Config) (env : Env) (w : Word) (nonsecure : Bool) : Bool :=
  match epmadDescription cfg with
  | .a => if nonsecure then epmad w == 0#1 else true
  | .b => epmad w == 0#1 || env.authOverrideEPMAD
  | .c => true
  | .absent => true

/-! ### EDAD (R116 to R118) -/

/-- What an external debugger reaches for (60_exceptions.md section 3.3). -/
inductive DebugTarget where
  | breakpoint
  | watchpoint
  | oslar
  | otherDebug
deriving DecidableEq, Repr

/-- Whether the `0b1` row of EDAD's description names the target (R116 to R118; 90_conflicts.md C4). -/
def edadCovers (cfg : Config) (target : DebugTarget) : Bool :=
  match target with
  | .breakpoint => true
  | .watchpoint => true
  | .otherDebug => false
  | .oslar =>
    match edadDescription cfg with
    | .a => true
    | .b => true
    | .c => cfg.edadCoversOSLAR
    | .absent => false

/-- `ExtDebugAccessPermittedBySDCR(target, access_is_nonsecure)` (R116, R117, R118; D23). -/
def extDebugAccessPermittedBySDCR
    (cfg : Config) (env : Env) (w : Word) (target : DebugTarget) (nonsecure : Bool) : Bool :=
  match edadDescription cfg with
  | .a => !(edad w == 1#1 && nonsecure && edadCovers cfg target)
  | .b => !(edad w == 1#1 && edadCovers cfg target && !env.authOverrideEDAD)
  | .c => !(edad w == 1#1 && edadCovers cfg target && !env.authOverrideEDAD)
  | .absent => true

/-! ### TTRF (R120, R121) -/

/-- `TraceFilterAccessTrappedBySDCR` (R120, R121): an access to `HTRFCR` or `TRFCR` generates a Monitor trap
exception (90_conflicts.md C1; D22). -/
def traceFilterAccessTrappedBySDCR (cfg : Config) (env : Env) (w : Word) : Bool :=
  cfg.featTrace84 && ttrf w == 1#1 && !env.inMonitorMode

/-! ### STE (R122 to R124) -/

/-- `EffectiveSTE` (R124); not defined without ARMv8.4-Trace (R122, D31). -/
def effectiveSTE (cfg : Config) (env : Env) (w : Word) : Except Refusal Bit :=
  if cfg.featTrace84 then .ok (if !cfg.haveEL3 && env.isSecure then 1#1 else ste w)
  else .error .controlNotDefined

/-- What SDCR says of trace (R123). -/
inductive TraceVerdict where
  /-- Non-secure state: the bit has no effect. -/
  | noEffect
  /-- "Trace is prohibited in Secure state". -/
  | prohibited
  /-- The authentication interface has overridden the prohibition. -/
  | overridden
  /-- Allowed by SDCR: the Trace Filter control registers decide. -/
  | leftToTraceFilter
deriving DecidableEq, Repr

/-- The reading of R123's two rows; not defined without ARMv8.4-Trace (R122, D31). -/
def secureTraceVerdict (cfg : Config) (env : Env) (w : Word) : Except Refusal TraceVerdict :=
  match effectiveSTE cfg env w with
  | .error r => .error r
  | .ok b =>
    .ok
      (if !env.isSecure then .noEffect
       else if b = 1#1 then .leftToTraceFilter
       else if env.authOverrideSTE then .overridden
       else .prohibited)

/-- `SecureTraceProhibitedBySDCR` (R123). -/
def secureTraceProhibitedBySDCR (cfg : Config) (env : Env) (w : Word) : Except Refusal Bool :=
  match secureTraceVerdict cfg env w with
  | .error r => .error r
  | .ok v => .ok (v == .prohibited)

/-! ### SPME (R126 to R129) -/

/-- `EffectiveSPME` (R128); not defined without PMUv3 (R129, D31). -/
def effectiveSPME (cfg : Config) (env : Env) (w : Word) : Except Refusal Bit :=
  if cfg.featPMUv3 then .ok (if !cfg.haveEL3 && env.isSecure then 1#1 else spme w)
  else .error .controlNotDefined

/-- `SecureEventCountingProhibitedBySDCR` (R126, R127, R129). -/
def secureEventCountingProhibitedBySDCR (cfg : Config) (env : Env) (w : Word) : Except Refusal Bool :=
  match effectiveSPME cfg env w with
  | .error r => .error r
  | .ok b =>
    match spmeDescription cfg with
    | .a => .ok (env.isSecure && b == 0#1)
    | .b => .ok (env.isSecure && b == 0#1 && !env.extSecureNoninvasiveDebugEnabled)
    | .c => .error .controlNotDefined
    | .absent => .error .controlNotDefined

/-- The counters SDCR gates in Secure state (60_exceptions.md R135). -/
inductive PmuCounter where
  /-- The cycle counter `PMCCNTR`. -/
  | cycleCounter
  /-- An event counter, whatever event it counts, `CPU_CYCLES` among them (R112). -/
  | eventCounter
deriving DecidableEq, Repr

/-- Whether SDCR prohibits a counter from counting: `PMCCNTR` through SCCD (R112), an event counter through SPME
(R126 to R129). Whether SPME stops `PMCCNTR` too is not in the source (R129; log 18). -/
def pmuCounterProhibitedBySDCR
    (cfg : Config) (env : Env) (w : Word) (counter : PmuCounter) : Except Refusal Bool :=
  match counter with
  | .cycleCounter => .ok (pmccntrProhibitedBySCCD cfg env w)
  | .eventCounter => secureEventCountingProhibitedBySDCR cfg env w

/-! ### SPD (R130 to R134) -/

/-- The value of SPD the hardware behaves by: `0b01` as `0b00` (10_state.md R33). -/
def effectiveSPD (w : Word) : BitVec 2 := if spd w = 0b01#2 then 0b00#2 else spd w

/-- `SecurePrivDebugExceptionsEnabledBySDCR` (R130, R131). -/
def securePrivDebugExceptionsEnabledBySDCR (env : Env) (w : Word) : Bool :=
  if effectiveSPD w = 0b00#2 then env.authSecurePrivDebug
  else effectiveSPD w == 0b11#2

/-- `SecureEL0DebugExceptionsEnabledBySDCR` (R132). -/
def secureEL0DebugExceptionsEnabledBySDCR (env : Env) (w : Word) : Bool :=
  securePrivDebugExceptionsEnabledBySDCR env w || env.suiden == 1#1

/-- The Secure privileged level the first output governs: EL3 when EL3 is using AArch32, "as there is no Secure
EL1" (R134, 90_conflicts.md C2), else the table's own Secure EL1 (R130). DESIGN CHOICE (log 25): `EL3_AARCH32` alone
decides, in an implementation without EL3 too, where the spec leaves it open. -/
def spdGovernedLevel (cfg : Config) : EL := if cfg.el3AArch32 then .el3 else .el1

/-- The debug exceptions the source tells apart (R104, R133). -/
inductive DebugException where
  /-- "Breakpoint Instruction exceptions". -/
  | breakpointInstruction
  /-- Any other debug exception. -/
  | other
deriving DecidableEq, Repr

/-- Where a debug exception comes from: the privileged level of `spdGovernedLevel`, or EL0. -/
inductive DebugSource where
  | privileged
  | el0
deriving DecidableEq, Repr

/-- Whether SDCR leaves a debug exception enabled (R130 to R133): Breakpoint Instruction exceptions are always
enabled, and in Non-secure state the field is ignored. -/
def debugExceptionEnabledBySDCR
    (env : Env) (w : Word) (kind : DebugException) (source : DebugSource) : Bool :=
  match kind with
  | .breakpointInstruction => true
  | .other =>
    if !env.isSecure then true
    else
      match source with
      | .privileged => securePrivDebugExceptionsEnabledBySDCR env w
      | .el0 => secureEL0DebugExceptionsEnabledBySDCR env w

end Sys2Proof.Machine
end

