-- ==== Sys2Proof/Safety.lean ====
section
/-!
DEFINITION. What claims are stated in: the parts of an outcome, the arms of 40_sdcr_access.md R82 as the source writes
them, when a write is gated, the invariant of the machine, safe states.
-/

namespace Sys2Proof.Machine

open Sys2Proof

/-- The next state of an outcome, where there is one. -/
def nextOf : Result → Option State
  | .next s => some s
  | .fault _ => none
  | .refused _ => none

/-- The fault of an outcome, where there is one. -/
def faultOf : Result → Option Fault
  | .next _ => none
  | .fault f => some f
  | .refused _ => none

/-- The refusal of an outcome, where there is one. -/
def refusalOf : Result → Option Refusal
  | .next _ => none
  | .fault _ => none
  | .refused r => some r

/-! ### The conditions of the source's pseudocode, in its inputs -/

/-- Arm 1 of 40_sdcr_access.md R82. -/
abbrev Arm1 (env : Env) : Prop := env.el2Enabled = true ∧ env.el2AArch32 = false ∧ env.hstrEL2T1 = 1#1

/-- Arm 2 of 40_sdcr_access.md R82. -/
abbrev Arm2 (env : Env) : Prop := env.el2Enabled = true ∧ env.el2AArch32 = true ∧ env.hstrT1 = 1#1

/-- Arm 3 of 40_sdcr_access.md R82. -/
abbrev Arm3 (env : Env) : Prop := env.el2AArch32 = false ∧ env.scrEL3NS = 0#1 ∧ env.scrEL3EEL2 = 1#1

/-- Arm 4 of 40_sdcr_access.md R82. -/
abbrev Arm4 (cfg : Config) (env : Env) : Prop := cfg.el3AArch32 = false ∧ env.scrEL3NS = 0#1

/-- The decision table of 40_sdcr_access.md R88, rows tried top to bottom. -/
def el1Table (cfg : Config) (env : Env) : Fault :=
  if Arm1 env then .systemAccessTrap .el2 0x03
  else if Arm2 env then .hypTrap 0x03
  else if Arm3 env then .systemAccessTrap .el2 0x03
  else if Arm4 cfg env then .systemAccessTrap .el3 0x03
  else .undefined

/-- Two settings of configuration and inputs that differ only in inputs about Exception levels the implementation
lacks (92_eei_decisions.md D8; log 12). -/
structure SameKnownInputs (cfg cfg' : Config) (env env' : Env) : Prop where
  haveEL2 : cfg.haveEL2 = cfg'.haveEL2
  haveEL3 : cfg.haveEL3 = cfg'.haveEL3
  el2Enabled : env.el2Enabled = env'.el2Enabled
  aboutEL2 : cfg.haveEL2 = true →
    env.el2AArch32 = env'.el2AArch32 ∧ env.hstrEL2T1 = env'.hstrEL2T1 ∧ env.hstrT1 = env'.hstrT1
  aboutEL3 : cfg.haveEL3 = true →
    env.scrEL3NS = env'.scrEL3NS ∧ env.scrEL3EEL2 = env'.scrEL3EEL2 ∧ cfg.el3AArch32 = cfg'.el3AArch32

/-- The signal `CP15SDISABLE2` blocks a write (40_sdcr_access.md R81). -/
abbrev WriteBlocked (env : Env) : Prop := env.scrNS = 0#1 ∧ env.cp15sdisable2 = .high

/-! ### The invariant -/

/-- A value of SDCR is 0 in every hardwired bit: `SDCR & ~STORED(cfg) == 0` (10_state.md R37). -/
def hardwiredZero (cfg : Config) (v : Word) : Bool := v &&& ~~~ stored cfg == 0#32

/-- The invariant: the stored RES0 bits are RES0 bits (00_scope.md R5), SDCR and every older value that may still be
acted on are 0 in every hardwired bit (10_state.md R37: `SDCR & ~STORED(cfg) == 0`), and the instruction bytes are in
canonical form. -/
abbrev State.Inv (s : State) : Prop :=
  Config.wf s.cfg = true ∧ s.observable.all (hardwiredZero s.cfg) = true ∧ Memory.wf s.code

/-- A state from which the next step is neither a fault nor a refusal. -/
def State.Safe (s : State) : Prop := ∃ t, step s = .next t

/-- Nothing on the agenda can raise the privilege of the PE or reset it: no reset and no change of the inputs. -/
def State.quiet (s : State) : Prop :=
  ∀ a ∈ s.agenda, a ≠ .event .reset ∧ ∀ e, a ≠ .event (.inputs e)

end Sys2Proof.Machine
end

