-- ==== Sys2Proof/Certificates/Slice0/Obligations.lean ====
section
/-!
DEFINITION. The statements for the provers. Each docstring names the rule of spec/ it formalises, and says where a
clause is the model's own choice.
-/

open Sys2Proof
open Sys2Proof.Machine

/-! ### Reset and the invariant -/

/-- `State.reset` meets the invariant; SDCR is 0 there (10_state.md R38, in configuration FULL, the model's choice,
log 1); the PE is at EL3 (70_reset_and_hazards.md R142); and no older value of SDCR may still be acted on (the model's
reading, DEDUCED, log 17). The other values of `State.reset` are the model's choice (logs 1, 2, 7 and 8), and nothing
is said of them. -/
def Obligations.ResetStateMeetsTheInvariant : Prop :=
  State.reset.Inv ∧ State.reset.sdcr = 0#32 ∧ State.reset.env.el = .el3 ∧ State.reset.synced = true

/-- 70_reset_and_hazards.md R140 and R142 with 10_state.md R38: a reset is a step of its own. It leaves every field 0
when the PE resets into EL3 using AArch32, the whole register 0 when no RES0 bit is stored, and the hardwired bits 0
in every configuration. The PE is then at the highest Exception level it implements (R142, in the spec's words general
knowledge, GK21; PRESUMED, log 24). That registers, pc, every other input and the instruction bytes are as they were
is R140's "does nothing else to the state of this spec" for SDCR's hardware and the model's choice for the
environment's part (log 24). The bits that the spec draws (its decision D16, log 15) are free, and nothing is said of
them; that all kinds of reset are one is its decision D17. -/
def Obligations.ResetStepReplacesSDCROnly : Prop :=
  ∀ (s : State) (rest : List Action), s.agenda = .event .reset :: rest →
    ∃ t, step s = .next t ∧
      (s.cfg.haveEL3 = true → s.cfg.el3AArch32 = true →
        t.sdcr &&& wmask s.cfg = 0#32 ∧ (s.cfg.res0StoreMask = 0#32 → t.sdcr = 0#32)) ∧
      t.sdcr &&& ~~~ (wmask s.cfg ||| s.cfg.res0StoreMask) = 0#32 ∧
      (s.cfg.haveEL3 = true → t.env.el = .el3) ∧
      (s.cfg.haveEL3 = false → s.cfg.haveEL2 = true → t.env.el = .el2) ∧
      (s.cfg.haveEL3 = false → s.cfg.haveEL2 = false → t.env.el = .el1) ∧
      t.x = s.x ∧ t.pc = s.pc ∧ t.env = { s.env with el := t.env.el } ∧ t.cfg = s.cfg ∧ t.code = s.code ∧
      t.agenda = rest

/-- Every step keeps the invariant: hardwired bits of SDCR read 0 (10_state.md R37), of the older values that may
still be acted on too, and the instruction bytes stay in canonical form (the model's own, logs 4 and 17). -/
def Obligations.EveryStepKeepsTheInvariant : Prop :=
  ∀ s t : State, s.Inv → step s = .next t → t.Inv

/-- Along every run, of any length and from any state that meets the invariant: the invariant holds and the
configuration is the same (00_scope.md R5: it "does not change at run time"). -/
def Obligations.InvariantAndConfigurationHoldAlongRuns : Prop :=
  ∀ (k : Nat) (s t : State), s.Inv → Host.Core.run Sys2Proof.core k s = .next t → t.Inv ∧ t.cfg = s.cfg

/-! ### Fetch, decode, encode -/

/-- When the bytes at the pc decode to an instruction, a step is `exec` of it, with the agenda's entry used up (the
byte order is PRESUMED, log 4; the agenda is the model's own, log 3). -/
def Obligations.StepRunsTheDecodedInstruction : Prop :=
  ∀ (s : State) (bytes rest : List Byte) (i : Instr),
    Memory.getBytes s.code s.pc 4 = some bytes → decode s.env.instrSet bytes = .ok (i, rest) →
    (s.agenda = [] → step s = exec i s) ∧
    (∀ more, s.agenda = .execute :: more → step s = exec i { s with agenda := more })

/-- Where the environment supplies no instruction, and where the decoder refuses the word, a step that executes is
refused by name, whether its agenda is empty or begins with an execution (30_encoding.md R67, the spec's decision D11,
log 9, and R71, log 10; `noInstruction` and the agenda are the model's own, logs 4 and 3). -/
def Obligations.StepRefusesWhatDoesNotDecode : Prop :=
  ∀ s : State, (s.agenda = [] ∨ ∃ more, s.agenda = .execute :: more) →
    (Memory.getBytes s.code s.pc 4 = none → step s = .refused .noInstruction) ∧
    (∀ bytes, Memory.getBytes s.code s.pc 4 = some bytes →
      (decode s.env.instrSet bytes = .error .notSDCR → step s = .refused .notSDCR) ∧
      (decode s.env.instrSet bytes = .error .rtIs15 → step s = .refused .rtIs15))

/-- The word of a table row, supplied by `withFetchWord`, is what the next step runs (the model's own, log 5). -/
def Obligations.WithFetchWordRunsTheTableWord : Prop :=
  ∀ (s : State) (nbits w : Nat) (i : Instr), decodeTableWord nbits w = some i →
    step (s.withFetchWord nbits w) = exec i { s.withFetchWord nbits w with agenda := s.agenda } ∧
    (s.withFetchWord nbits w).env.instrSet = i.instrSet

/-- Decoding the encoding of a well-formed instruction, with any bytes after it, gives the instruction back (the bit
layout is PRESUMED, log 6; the byte order, log 4). -/
def Obligations.DecodeOfEncodeIsTheInstruction : Prop :=
  ∀ (i : Instr) (rest : List Byte), i.wf = true → decode i.instrSet (encode i ++ rest) = .ok (i, rest)

/-- Each word has one meaning: what decodes is well-formed, of the set it was read in, and its encoding is the bytes
read (layout and byte order PRESUMED, logs 6 and 4). -/
def Obligations.EncodeOfDecodeIsTheBytes : Prop :=
  ∀ (set : InstrSet) (bytes rest : List Byte) (i : Instr), decode set bytes = .ok (i, rest) →
    i.wf = true ∧ i.instrSet = set ∧ bytes = encode i ++ rest

/-- 30_encoding.md R65 and R71: the word decoder is the table of matches and masks, with `Rt` in bits [15:12] and the
A32 condition in bits [31:28]; every other word is refused, and `Rt` = 15 by its own name (R67, the spec's decision
D11). The layout is general knowledge in the spec's own words (GK4, GK5; log 6). -/
def Obligations.DecoderIsTheMatchAndMaskTable : Prop :=
  (∀ w : Word, decodeWord .a32 w =
    if w &&& 0x0FFF0FFF#32 = 0x0E110F33#32 ∧ w.extractLsb' 28 4 ≠ 0b1111#4 then
      (if w.extractLsb' 12 4 = 15#4 then .error .rtIs15
       else .ok (.mrcA32 (w.extractLsb' 28 4) (w.extractLsb' 12 4)))
    else if w &&& 0x0FFF0FFF#32 = 0x0E010F33#32 ∧ w.extractLsb' 28 4 ≠ 0b1111#4 then
      (if w.extractLsb' 12 4 = 15#4 then .error .rtIs15
       else .ok (.mcrA32 (w.extractLsb' 28 4) (w.extractLsb' 12 4)))
    else .error .notSDCR) ∧
  (∀ w : Word, decodeWord .t32 w =
    if w &&& 0xFFFF0FFF#32 = 0xEE110F33#32 then
      (if w.extractLsb' 12 4 = 15#4 then .error .rtIs15 else .ok (.mrcT32 (w.extractLsb' 12 4)))
    else if w &&& 0xFFFF0FFF#32 = 0xEE010F33#32 then
      (if w.extractLsb' 12 4 = 15#4 then .error .rtIs15 else .ok (.mcrT32 (w.extractLsb' 12 4)))
    else .error .notSDCR)

/-- Words of 95_test_vectors.md section 2.1 (V2, V4, V5, V6, V7, V8, V20), each written out; P1's third word (Part 3,
A32 there) read as T32, where 30_encoding.md R64 and R65 give it the same fields; and the little-endian bytes of P1's
first word (Part 3). The bit layout is PRESUMED (GK4, GK5; log 6), and so is the byte order (GK24; log 4). -/
def Obligations.WrittenOutWordsDecode : Prop :=
  decodeWord .a32 0xEE111F33#32 = .ok (.mrcA32 14#4 1#4) ∧
  decodeWord .a32 0xEE012F33#32 = .ok (.mcrA32 14#4 2#4) ∧
  decodeWord .a32 0x0E110F33#32 = .ok (.mrcA32 0#4 0#4) ∧
  decodeWord .a32 0x1E013F33#32 = .ok (.mcrA32 1#4 3#4) ∧
  decodeWord .a32 0xEE11EF33#32 = .ok (.mrcA32 14#4 14#4) ∧
  decodeWord .a32 0xEE01DF33#32 = .ok (.mcrA32 14#4 13#4) ∧
  decodeWord .t32 0xEE015F33#32 = .ok (.mcrT32 5#4) ∧
  decodeWord .t32 0xEE112F33#32 = .ok (.mrcT32 2#4) ∧
  decode .a32 [0x33#8, 0x0F#8, 0x11#8, 0xEE#8] = .ok (.mrcA32 14#4 0#4, [])

/-- 30_encoding.md R62: `SelectsSDCR` is the five values; a record that selects SDCR is the `MRC` or the `MCR` by its
direction, whatever its condition bits; one with `Rt` = 15 is refused by that name (R67, R80, R81, the spec's decision
D11, log 9); a record that does not select SDCR is refused (R71), whatever its `Rt` (log 10). The record is the spec's
decision D1. -/
def Obligations.RecordThatSelectsSDCRIsTheInstruction : Prop :=
  (∀ r : SysRegAccess, r.selectsSDCR = true ↔
    r.coproc = 0b1111#4 ∧ r.opc1 = 0b000#3 ∧ r.crn = 0b0001#4 ∧ r.crm = 0b0011#4 ∧ r.opc2 = 0b001#3) ∧
  (∀ (r : SysRegAccess) (i : Instr) (s : State), r.selectsSDCR = true → i.wf = true → r.rt = i.rt → r.dir = i.dir →
    execRecord r s = exec i s) ∧
  (∀ (r : SysRegAccess) (s : State), r.selectsSDCR = true → r.rt = 15#4 → execRecord r s = .refused .rtIs15) ∧
  (∀ (r : SysRegAccess) (s : State), r.selectsSDCR = false → execRecord r s = .refused .notSDCR)

/-- 30_encoding.md R60, R66 and R68: the line `MRC p15, 0, <Rt>, c1, c3, 1` (or `MCR`) assembles to the instruction it
is written for; the qualifier and the `#` marks do not matter. An A32 line with `<c>` omitted is the instruction with
condition 1110, always; a T32 line with `<c>` written is the T32 instruction, which holds no condition; a condition
1111 is none (log 21). With `<opc2>` omitted the line is not SDCR. The spellings are general knowledge in the spec's
own words (GK6, GK8; log 21). -/
def Obligations.AssemblerLineIsTheInstruction : Prop :=
  ∀ i : Instr, i.wf = true →
    (∀ (q : Option Qualifier) (h1 h2 : Bool),
      let line : AsmLine :=
        { asmOf i with
          qualifier := q
          operands := [.coproc 15#4, .imm h1 0#3, .gpr i.rt, .creg 1#4, .creg 3#4, .imm h2 1#3] }
      AsmLine.instr i.instrSet line = some (.ok i) ∧
      (i.instrSet = .a32 →
        AsmLine.instr .a32 { line with cond := none } =
          some (.ok (match i.dir with | .read => .mrcA32 0b1110#4 i.rt | .write => .mcrA32 0b1110#4 i.rt))) ∧
      (i.instrSet = .t32 → ∀ c, c ≠ 0b1111#4 → AsmLine.instr .t32 { line with cond := some c } = some (.ok i)) ∧
      AsmLine.instr i.instrSet { line with cond := some 0b1111#4 } = some (.error .notSDCR)) ∧
    (∀ h1 : Bool,
      AsmLine.instr i.instrSet
        { asmOf i with operands := [.coproc 15#4, .imm h1 0#3, .gpr i.rt, .creg 1#4, .creg 3#4] } =
          some (.error .notSDCR)) ∧
    AsmLine.instr i.instrSet (asmOf i) = some (.ok i)

/-! ### MRC and MCR: results, completion, frames -/

/-- 40_sdcr_access.md R80: at EL3 `MRC`, in A32 and T32, completes whatever the Security state and `CP15SDISABLE2`; it
puts SDCR in `x[t]` (bits [15:14] by R33, the spec's decision D4, while SPD holds `0b01`), adds 4 to the pc (its
decision D10), and changes nothing else of the spec's state. -/
def Obligations.MrcAtEL3ReadsSDCRIntoRt : Prop :=
  ∀ (s : State) (cond rt : BitVec 4) (k : Fin 15) (i : Instr),
    cond ≠ 0b1111#4 → rt.toNat = k.val → (i = .mrcA32 cond rt ∨ i = .mrcT32 rt) →
    s.env.conditionPassed = true → s.env.el = .el3 →
    ∃ t, exec i s = .next t ∧
      (s.sdcr.extractLsb' 14 2 ≠ 0b01#2 → t.getReg k = s.sdcr) ∧
      t.getReg k &&& ~~~ 0x0000C000#32 = s.sdcr &&& ~~~ 0x0000C000#32 ∧
      (s.sdcr.extractLsb' 14 2 = 0b01#2 →
        ∀ b, s.cfg.spdReservedReadback = some b → (t.getReg k).extractLsb' 14 2 = b) ∧
      (∀ j : Fin 15, j ≠ k → t.getReg j = s.getReg j) ∧
      t.pc = s.pc + 4#32 ∧ t.sdcr = s.sdcr ∧ t.unsynced = s.unsynced ∧ t.cfg = s.cfg ∧ t.env = s.env ∧
      t.code = s.code ∧ t.agenda = s.agenda

/-- 40_sdcr_access.md R81: at EL3 `MCR`, in A32 and T32, completes unless `SCR.NS == 0` and `CP15SDISABLE2` is HIGH;
it puts `x[t] & STORED(cfg)` in SDCR (RES0 bits by the spec's decision D3), adds 4 to the pc (its decision D10), and
changes nothing else of the spec's state. (That the old value joins `unsynced` is the model's own, log 17.) -/
def Obligations.McrAtEL3WritesRtIntoSDCR : Prop :=
  ∀ (s : State) (cond rt : BitVec 4) (k : Fin 15) (i : Instr),
    cond ≠ 0b1111#4 → rt.toNat = k.val → (i = .mcrA32 cond rt ∨ i = .mcrT32 rt) →
    s.env.conditionPassed = true → s.env.el = .el3 → ¬ (s.env.scrNS = 0#1 ∧ s.env.cp15sdisable2 = .high) →
    ∃ t, exec i s = .next t ∧
      t.sdcr = s.getReg k &&& (wmask s.cfg ||| s.cfg.res0StoreMask) ∧
      t.x = s.x ∧ t.pc = s.pc + 4#32 ∧ t.unsynced = s.sdcr :: s.unsynced ∧ t.draws = s.draws ∧ t.cfg = s.cfg ∧
      t.env = s.env ∧ t.code = s.code ∧ t.agenda = s.agenda

/-- 30_encoding.md R66: where the condition does not pass, every form only adds 4 to the pc, at every Exception level
and with no check evaluated (the spec's decision D9; log 11). -/
def Obligations.FailedConditionOnlyAdvancesPc : Prop :=
  ∀ (s : State) (cond rt : BitVec 4) (i : Instr), cond ≠ 0b1111#4 → rt ≠ 15#4 →
    (i = .mrcA32 cond rt ∨ i = .mcrA32 cond rt ∨ i = .mrcT32 rt ∨ i = .mcrT32 rt) →
    s.env.conditionPassed = false → exec i s = .next { s with pc := s.pc + 4#32 }

/-- 10_state.md R37: a completed write replaces every field at once by the bits of the value, SPD by all four of its
values; nothing is kept or checked; the hardwired bits are 0 after every write and after every reset (RES0 bits by the
spec's decision D3, log 16). -/
def Obligations.WriteReplacesEveryFieldAtOnce : Prop :=
  (∀ (s : State) (i : Instr) (k : Fin 15), i.wf = true → i.dir = .write → i.rt.toNat = k.val →
    s.env.conditionPassed = true → s.env.el = .el3 → ¬ WriteBlocked s.env →
    ∃ t, exec i s = .next t ∧
      t.sdcr = s.getReg k &&& (wmask s.cfg ||| s.cfg.res0StoreMask) ∧
      (∀ n, (wmask s.cfg).getLsbD n = true → t.sdcr.getLsbD n = (s.getReg k).getLsbD n) ∧
      t.sdcr.extractLsb' 14 2 = (s.getReg k).extractLsb' 14 2 ∧
      t.sdcr &&& ~~~ (wmask s.cfg ||| s.cfg.res0StoreMask) = 0#32) ∧
  (∀ (s : State) (rest : List Action), s.agenda = .event .reset :: rest →
    ∃ t, step s = .next t ∧ t.sdcr &&& ~~~ (wmask s.cfg ||| s.cfg.res0StoreMask) = 0#32)

/-- 10_state.md R39: the value a read returns; a read changes no state but its destination and the pc (and the model's
count of draws, log 14); two reads with no write between them return the same value, but for bits [15:14] while SPD
holds `0b01` and no read-back is fixed (the spec's decision D4). -/
def Obligations.TwoReadsReturnTheStoredValue : Prop :=
  ∀ (s : State) (i j : Instr) (k m : Fin 15), i.wf = true → j.wf = true → i.dir = .read → j.dir = .read →
    i.rt.toNat = k.val → j.rt.toNat = m.val → s.env.conditionPassed = true → s.env.el = .el3 →
    ∃ t u, exec i s = .next t ∧ exec j t = .next u ∧
      (s.sdcr.extractLsb' 14 2 ≠ 0b01#2 → t.getReg k = s.sdcr) ∧
      (s.sdcr.extractLsb' 14 2 = 0b01#2 →
        t.getReg k &&& ~~~ 0x0000C000#32 = s.sdcr &&& ~~~ 0x0000C000#32 ∧
        ∀ b, s.cfg.spdReservedReadback = some b → (t.getReg k).extractLsb' 14 2 = b) ∧
      (s.sdcr.extractLsb' 14 2 ≠ 0b01#2 ∨ s.cfg.spdReservedReadback ≠ none → u.getReg m = t.getReg k) ∧
      u.getReg m &&& ~~~ 0x0000C000#32 = t.getReg k &&& ~~~ 0x0000C000#32 ∧
      t = { s with x := s.x.set k (t.getReg k), pc := s.pc + 4#32, draws := t.draws } ∧
      u = { t with x := t.x.set m (u.getReg m), pc := t.pc + 4#32, draws := u.draws }

/-- The frame of every form: what `MRC` and `MCR` leave unchanged when they answer a next state (40_sdcr_access.md
R80, R81: state written). No flag exists (10_state.md R46), and every byte of the instruction bytes reads as before.
-/
def Obligations.ExecFrame : Prop :=
  ∀ (i : Instr) (s t : State), exec i s = .next t →
    (∀ j : Fin 15, i.dir = .write ∨ i.rt.toNat ≠ j.val → t.getReg j = s.getReg j) ∧
    (i.dir = .read → t.sdcr = s.sdcr ∧ t.unsynced = s.unsynced) ∧
    (i.dir = .write → t.draws = s.draws) ∧
    (∀ a, Memory.get t.code a = Memory.get s.code a) ∧
    t.cfg = s.cfg ∧ t.env = s.env ∧ t.code = s.code ∧ t.agenda = s.agenda

/-- 10_state.md R45: whatever form ends `Completed` or `ConditionFailed`, the pc is 4 more, modulo 2^32 (the spec's
decision D10; log 8). -/
def Obligations.PcAdvancesByFourModulo : Prop :=
  ∀ (i : Instr) (s t : State), exec i s = .next t →
    t.pc = s.pc + 4#32 ∧ t.pc.toNat = (s.pc.toNat + 4) % 2 ^ 32

/-- 20_memory.md R56: an `MRC` that follows an `MCR`, with no reset between, returns the value the `MCR` stored
(through R37 and R39), whatever the environment does to the inputs, the registers and the pc between them (the spec's
decision D15). -/
def Obligations.ReadAfterWriteReturnsTheWrite : Prop :=
  ∀ (s : State) (i j : Instr) (k m : Fin 15) (e : Env) (x' : Vector Word 15) (p : Word),
    i.wf = true → i.dir = .write → i.rt.toNat = k.val → j.wf = true → j.dir = .read → j.rt.toNat = m.val →
    s.env.conditionPassed = true → s.env.el = .el3 → ¬ WriteBlocked s.env →
    e.conditionPassed = true → e.el = .el3 →
    ∃ t u, exec i s = .next t ∧ exec j { t with env := e, x := x', pc := p } = .next u ∧
      ((s.getReg k).extractLsb' 14 2 ≠ 0b01#2 →
        u.getReg m = s.getReg k &&& (wmask s.cfg ||| s.cfg.res0StoreMask)) ∧
      u.getReg m &&& ~~~ 0x0000C000#32 =
        s.getReg k &&& (wmask s.cfg ||| s.cfg.res0StoreMask) &&& ~~~ 0x0000C000#32 ∧
      ((s.getReg k).extractLsb' 14 2 = 0b01#2 →
        ∀ b, s.cfg.spdReservedReadback = some b → (u.getReg m).extractLsb' 14 2 = b)

/-- Writing back the value just read leaves SDCR as it was, unless SPD holds `0b01` (40_sdcr_access.md R81 corner case
(iv); 95_test_vectors.md section 2.8). The premise rules out states no run reaches: a hardwired bit that is 1. -/
def Obligations.WritingBackTheReadValueKeepsSDCR : Prop :=
  ∀ (s : State) (i j : Instr) (k : Fin 15), s.Inv →
    i.wf = true → i.dir = .read → i.rt.toNat = k.val → j.wf = true → j.dir = .write → j.rt.toNat = k.val →
    s.env.conditionPassed = true → s.env.el = .el3 → ¬ WriteBlocked s.env → s.sdcr.extractLsb' 14 2 ≠ 0b01#2 →
    ∃ t u, exec i s = .next t ∧ exec j t = .next u ∧ u.sdcr = s.sdcr

/-! ### Checks, traps, privilege -/

/-- 60_exceptions.md R100, condition passed: a form ends `Undefined` only where the rule says, in every configuration;
and wherever it says, but at EL1 only where EL2 and EL3 are implemented, since elsewhere the spec's decision D8
refuses some accesses (`haveEL2` and the reading of D8 are the model's, log 12; `AbsentLevelIsRefusedNeverGuessed`).
That no target level and no code come with it is the spec's decision D25. -/
def Obligations.UndefinedExactlyWhereTheSourceSaysSo : Prop :=
  (∀ (i : Instr) (s : State), i.wf = true → s.env.conditionPassed = true →
    (exec i s = .fault .undefined →
      s.env.el = .el0 ∨ s.env.el = .el2 ∨
        (s.env.el = .el1 ∧ ¬ Arm1 s.env ∧ ¬ Arm2 s.env ∧ ¬ Arm3 s.env ∧ ¬ Arm4 s.cfg s.env) ∨
        (s.env.el = .el3 ∧ i.dir = .write ∧ s.env.scrNS = 0#1 ∧ s.env.cp15sdisable2 = .high)) ∧
    (s.env.el = .el0 ∨ s.env.el = .el2 ∨ (s.env.el = .el3 ∧ i.dir = .write ∧ WriteBlocked s.env) →
      exec i s = .fault .undefined) ∧
    (s.cfg.haveEL2 = true → s.cfg.haveEL3 = true → s.env.el = .el1 →
      ¬ Arm1 s.env → ¬ Arm2 s.env → ¬ Arm3 s.env → ¬ Arm4 s.cfg s.env → exec i s = .fault .undefined)) ∧
  Fault.target .undefined = none ∧ Fault.code .undefined = none

/-- 60_exceptions.md R101, R102, R103, condition passed: each trap is raised at EL1 on its arms and nowhere else, in
every configuration, and always on them where EL2 and EL3 are implemented (elsewhere the spec's decision D8 refuses
some of these accesses; `haveEL2` and the reading of D8 are the model's, log 12; `AbsentLevelIsRefusedNeverGuessed`);
and the target, its Execution state and the code. That a Hyp trap goes to EL2 using AArch32 by a Hyp Trap exception is
general knowledge in R103's own words (GK11). -/
def Obligations.EachTrapExactlyOnItsArms : Prop :=
  (∀ (i : Instr) (s : State), i.wf = true → s.env.conditionPassed = true →
    (exec i s = .fault (.systemAccessTrap .el2 0x03) →
      s.env.el = .el1 ∧ (Arm1 s.env ∨ (¬ Arm2 s.env ∧ Arm3 s.env))) ∧
    (exec i s = .fault (.hypTrap 0x03) → s.env.el = .el1 ∧ Arm2 s.env) ∧
    (exec i s = .fault (.systemAccessTrap .el3 0x03) →
      s.env.el = .el1 ∧ ¬ Arm1 s.env ∧ ¬ Arm2 s.env ∧ ¬ Arm3 s.env ∧ Arm4 s.cfg s.env) ∧
    (s.cfg.haveEL2 = true → s.cfg.haveEL3 = true → s.env.el = .el1 →
      (Arm1 s.env ∨ (¬ Arm2 s.env ∧ Arm3 s.env) → exec i s = .fault (.systemAccessTrap .el2 0x03)) ∧
      (Arm2 s.env → exec i s = .fault (.hypTrap 0x03)) ∧
      (¬ Arm1 s.env → ¬ Arm2 s.env → ¬ Arm3 s.env → Arm4 s.cfg s.env →
        exec i s = .fault (.systemAccessTrap .el3 0x03)))) ∧
  Fault.target (.systemAccessTrap .el2 0x03) = some .el2 ∧ Fault.target (.systemAccessTrap .el3 0x03) = some .el3 ∧
  Fault.target (.hypTrap 0x03) = some .el2 ∧ Fault.targetUsesAArch32 (.hypTrap 0x03) = some true ∧
  (∀ el, Fault.targetUsesAArch32 (.systemAccessTrap el 0x03) = some false) ∧
  (∀ el, Fault.code (.systemAccessTrap el 0x03) = some 0x03) ∧ Fault.code (.hypTrap 0x03) = some 0x03

/-- 40_sdcr_access.md R88: at EL1 the outcome of every form is the decision table's, rows tried top to bottom,
wherever EL2 and EL3 are implemented; elsewhere it is the table's or the refusal of 92_eei_decisions.md D8. -/
def Obligations.OutcomeAtEL1IsTheDecisionTable : Prop :=
  ∀ (i : Instr) (s : State), i.wf = true → s.env.conditionPassed = true → s.env.el = .el1 →
    exec i s = .fault
      (if s.env.el2Enabled = true ∧ s.env.el2AArch32 = false ∧ s.env.hstrEL2T1 = 1#1 then .systemAccessTrap .el2 0x03
       else if s.env.el2Enabled = true ∧ s.env.el2AArch32 = true ∧ s.env.hstrT1 = 1#1 then .hypTrap 0x03
       else if s.env.el2AArch32 = false ∧ s.env.scrEL3NS = 0#1 ∧ s.env.scrEL3EEL2 = 1#1 then .systemAccessTrap .el2 0x03
       else if s.env.scrEL3NS = 0#1 ∧ s.cfg.el3AArch32 = false then .systemAccessTrap .el3 0x03
       else .undefined) ∨
    (exec i s = .refused .absentEL ∧ ¬ (s.cfg.haveEL2 = true ∧ s.cfg.haveEL3 = true))

/-- 40_sdcr_access.md R82, last sentence (92_eei_decisions.md D8), as log 12 reads it: at EL1 every form ends as the
table says or is refused; no trap goes to a level that is absent; and a form is refused only where two settings of the
inputs about absent levels give two outcomes of the table, so never where both levels are implemented. -/
def Obligations.AbsentLevelIsRefusedNeverGuessed : Prop :=
  ∀ (i : Instr) (s : State), i.wf = true → s.env.conditionPassed = true → s.env.el = .el1 →
    (exec i s = .fault (el1Table s.cfg s.env) ∨ exec i s = .refused .absentEL) ∧
    (∀ f, exec i s = .fault f →
      (f.target = some .el2 → s.cfg.haveEL2 = true) ∧ (f.target = some .el3 → s.cfg.haveEL3 = true)) ∧
    (exec i s = .refused .absentEL ↔
      ∃ (cfg cfg' : Config) (env env' : Env), SameKnownInputs s.cfg cfg s.env env ∧
        SameKnownInputs s.cfg cfg' s.env env' ∧ el1Table cfg env ≠ el1Table cfg' env')

/-- The outcome at EL1 does not depend on an input about a level that the implementation lacks (92_eei_decisions.md
D8, as log 12 reads it). -/
def Obligations.InputsOfAnAbsentLevelDoNotMatter : Prop :=
  ∀ (i : Instr) (s : State), s.env.conditionPassed = true → s.env.el = .el1 →
    (s.cfg.haveEL2 = false → ∀ (a : Bool) (h h' : Bit),
      exec i { s with env := { s.env with el2AArch32 := a, hstrEL2T1 := h, hstrT1 := h' } } = exec i s) ∧
    (s.cfg.haveEL3 = false → ∀ (a : Bool) (n e : Bit),
      exec i
        { s with cfg := { s.cfg with el3AArch32 := a }, env := { s.env with scrEL3NS := n, scrEL3EEL2 := e } } =
        exec i s)

/-- 60_exceptions.md R110, condition passed: EL0 and EL2 get `Undefined`; at EL1 no access completes, and where EL2
and EL3 are implemented each ends in a trap to EL2 or EL3 or in `Undefined` (elsewhere the spec's decision D8 refuses
some; `haveEL2` and the reading of D8 are the model's, log 12); EL3 may read always and may write unless `SCR.NS == 0`
and `CP15SDISABLE2` is HIGH. -/
def Obligations.OnlyEL3CompletesAnAccess : Prop :=
  ∀ (i : Instr) (s : State), i.wf = true → s.env.conditionPassed = true →
    ((∃ t, exec i s = .next t) ↔
      s.env.el = .el3 ∧ (i.dir = .write → ¬ (s.env.scrNS = 0#1 ∧ s.env.cp15sdisable2 = .high))) ∧
    (s.env.el = .el0 → exec i s = .fault .undefined) ∧
    (s.env.el = .el1 → s.cfg.haveEL2 = true → s.cfg.haveEL3 = true →
      ∃ f, exec i s = .fault f ∧ (f = .undefined ∨ f.target = some .el2 ∨ f.target = some .el3)) ∧
    (s.env.el = .el2 → exec i s = .fault .undefined)

/-- 30_encoding.md R67: `Rt` = 15 is refused in every form, at every level and before the condition; no other `Rt` is
refused for its `Rt` (the spec's decision D11; log 9). -/
def Obligations.RtFifteenIsRefusedByName : Prop :=
  ∀ (s : State) (cond rt : BitVec 4) (i : Instr), cond ≠ 0b1111#4 →
    (i = .mrcA32 cond rt ∨ i = .mcrA32 cond rt ∨ i = .mrcT32 rt ∨ i = .mcrT32 rt) →
    (exec i s = .refused .rtIs15 ↔ rt = 15#4)

/-- 30_encoding.md R63: an A32 form with `cond = 0b1111` is not the instruction of this spec, whatever its `Rt` (GK6;
log 10). Said for each direction, the read (`MRC`) and the write (`MCR`), and for each constructor by its name. -/
def Obligations.CondFifteenIsNotThisInstruction : Prop :=
  ∀ (s : State) (rt : BitVec 4),
    (∀ dir : Dir,
      let i := instrOf .a32 dir 0b1111#4 rt
      i.instrSet = .a32 ∧ i.dir = dir ∧ i.rt = rt ∧ exec i s = .refused .notSDCR) ∧
    -- the read, `MRC`
    instrOf .a32 .read 0b1111#4 rt = .mrcA32 0b1111#4 rt ∧
    exec (.mrcA32 0b1111#4 rt) s = .refused .notSDCR ∧
    -- the write, `MCR`
    instrOf .a32 .write 0b1111#4 rt = .mcrA32 0b1111#4 rt ∧
    exec (.mcrA32 0b1111#4 rt) s = .refused .notSDCR

/-- 95_test_vectors.md section 2.8, point 3 (40_sdcr_access.md R80 to R82): an instruction that answers a next state
below EL3 has changed nothing but the pc. -/
def Obligations.BelowEL3NothingButThePcChanges : Prop :=
  ∀ (i : Instr) (s t : State), s.env.el ≠ .el3 → exec i s = .next t → t = { s with pc := s.pc + 4#32 }

/-- Below EL3 an instruction learns nothing of SDCR: with any other value stored, and any older values, the outcome is
the same, and a next state differs in SDCR alone. -/
def Obligations.BelowEL3NothingIsLearntOfSDCR : Prop :=
  ∀ (i : Instr) (s : State) (v : Word) (us : List Word), s.env.el ≠ .el3 →
    exec i { s with sdcr := v, unsynced := us } =
      match exec i s with
      | .next t => .next { t with sdcr := v, unsynced := us }
      | .fault f => .fault f
      | .refused r => .refused r

/-- 10_state.md R23: no agent but reset and the `MCR` writes SDCR, and the `MCR` only at EL3, its condition passed and
not blocked (40_sdcr_access.md R81). Over every step, events among them: a step that changes SDCR is a reset, or
executes an `MCR`. R23 is the spec's own inference from R80 and R81; the agenda is the model's own (log 3). -/
def Obligations.OnlyResetAndMcrAtEL3ChangeSDCR : Prop :=
  ∀ s t : State, step s = .next t → t.sdcr ≠ s.sdcr →
    (∃ rest, s.agenda = .event .reset :: rest) ∨
    ((s.agenda = [] ∨ ∃ more, s.agenda = .execute :: more) ∧
      ∃ i, s.fetch = .ok i ∧ i.dir = .write ∧ s.env.el = .el3 ∧ s.env.conditionPassed = true ∧
      ¬ (s.env.scrNS = 0#1 ∧ s.env.cp15sdisable2 = .high))

/-- Isolation over runs of any length: from a state below EL3, while nothing on the agenda resets the PE or changes
the inputs, no program changes SDCR or the Exception level (10_state.md R23, 60_exceptions.md R110). -/
def Obligations.SoftwareBelowEL3NeverChangesSDCR : Prop :=
  ∀ (k : Nat) (s t : State), s.quiet → s.env.el ≠ .el3 → Host.Core.run Sys2Proof.core k s = .next t →
    t.sdcr = s.sdcr ∧ t.env = s.env

/-! ### Events and visibility -/

/-- 20_memory.md R57, premise `SYNCED` (the spec's decision D15), as the model holds it (log 17): a completed write
leaves the older values observable, a Context synchronization event leaves the stored one alone, and with `SYNCED`
there is no other. -/
def Obligations.ContextSynchronizationMakesTheWriteVisible : Prop :=
  (∀ (s t : State) (i : Instr) (k : Fin 15), i.dir = .write → i.rt.toNat = k.val → s.env.conditionPassed = true →
    exec i s = .next t → t.observable = (s.getReg k &&& stored s.cfg) :: s.observable ∧ t.synced = false) ∧
  (∀ (s : State) (rest : List Action), s.agenda = .event .contextSync :: rest →
    step s = .next { s with unsynced := [], agenda := rest }) ∧
  (∀ s : State, s.synced = true → ∀ v, v ∈ s.observable ↔ v = s.sdcr)

/-- What the environment's other events do (the model's own, log 3): a change of the inputs, `CP15SDISABLE2` among
them, never changes the stored value (70_reset_and_hazards.md R147); a register, the pc or an instruction byte is
changed alone. -/
def Obligations.EnvironmentEventsChangeTheirOwnPart : Prop :=
  (∀ (s : State) (e : Env) (rest : List Action), s.agenda = .event (.inputs e) :: rest →
    step s = .next { s with env := e, agenda := rest }) ∧
  (∀ (s : State) (k : Fin 15) (v : Word) (rest : List Action), s.agenda = .event (.setReg k v) :: rest →
    ∃ t, step s = .next t ∧ t.getReg k = v ∧ (∀ j, j ≠ k → t.getReg j = s.getReg j) ∧
      t = { s with x := t.x, agenda := rest }) ∧
  (∀ (s : State) (v : Word) (rest : List Action), s.agenda = .event (.setPc v) :: rest →
    step s = .next { s with pc := v, agenda := rest }) ∧
  (∀ (s : State) (a : Word) (b : Byte) (rest : List Action), s.agenda = .event (.loadByte a b) :: rest →
    ∃ t, step s = .next t ∧ Memory.get t.code a.toNat = some b ∧
      (∀ n, n ≠ a.toNat → Memory.get t.code n = Memory.get s.code n) ∧
      t = { s with code := t.code, agenda := rest })

/-- 70_reset_and_hazards.md R150 with 60_exceptions.md R100 to R103: a run that ends in an exception or a refusal ends
at the first step that has it, which executes an instruction and is no event, and every longer run has the same
result. Where it is an exception, the bytes at the pc were a well-formed instruction with its condition passed, and at
EL3 a blocked write; where it is a refusal, the environment supplied no instruction, or the word at the pc is refused
by that name, or a well-formed instruction was executed at EL1 (the spec's decisions D7, D8, D11, D30; logs 3, 4, 9,
10, 12 and 13). -/
def Obligations.RunEndsAtTheFirstTerminalOutcome : Prop :=
  ∀ (k : Nat) (s : State),
    (∀ f, Host.Core.run Sys2Proof.core k s = .fault f →
      ∃ j t i, j < k ∧ Host.Core.run Sys2Proof.core j s = .next t ∧ step t = .fault f ∧
        (∀ n, j < n → Host.Core.run Sys2Proof.core n s = .fault f) ∧
        (t.agenda = [] ∨ ∃ more, t.agenda = .execute :: more) ∧ t.fetch = .ok i ∧ i.wf = true ∧
        t.env.conditionPassed = true ∧ (t.env.el = .el3 → i.dir = .write ∧ WriteBlocked t.env)) ∧
    (∀ r, Host.Core.run Sys2Proof.core k s = .refused r →
      ∃ j t, j < k ∧ Host.Core.run Sys2Proof.core j s = .next t ∧ step t = .refused r ∧
        (∀ n, j < n → Host.Core.run Sys2Proof.core n s = .refused r) ∧
        (t.agenda = [] ∨ ∃ more, t.agenda = .execute :: more) ∧
        ((r = .noInstruction ∧ Memory.getBytes t.code t.pc 4 = none) ∨
          (r = .notSDCR ∧ t.fetch = .error .notSDCR) ∨
          (r = .rtIs15 ∧ t.fetch = .error .rtIs15) ∨
          (r = .absentEL ∧ t.env.el = .el1 ∧ t.env.conditionPassed = true ∧ ∃ i, t.fetch = .ok i ∧ i.wf = true)))

/-- 10_state.md R22: where SDCR is mapped to `MDCR_EL3[31:0]` they are one piece of storage; where not, the model has
no `MDCR_EL3`; and no instruction behaves otherwise for it (the spec's decision D5; log 19). -/
def Obligations.MappingToMDCRChangesNoInstruction : Prop :=
  (∀ s : State, (s.cfg.mappedToMDCREL3 = true → s.mdcrEL3Low = some s.sdcr) ∧
    (s.cfg.mappedToMDCREL3 = false → s.mdcrEL3Low = none)) ∧
  (∀ (i : Instr) (s : State) (b : Bool),
    exec i { s with cfg := { s.cfg with mappedToMDCREL3 := b } } =
      match exec i s with
      | .next t => .next { t with cfg := { s.cfg with mappedToMDCREL3 := b } }
      | .fault f => .fault f
      | .refused r => .refused r)

/-! ### Masks and control outputs -/

/-- 10_state.md R35, bit by bit: which bits hold a field in a configuration, `RES0MASK`, and the four constants. -/
def Obligations.WriteMaskHoldsTheFieldsOfTheConfiguration : Prop :=
  (∀ (cfg : Config) (n : Nat), (wmask cfg).getLsbD n =
    (n == 14 || n == 15 || n == 20 || (n == 23 && cfg.featPMU85) ||
      (n == 21 && cfg.featPMUv3 && cfg.pmuExtDebugIf) || ((n == 18 || n == 19) && cfg.featTrace84) ||
      (n == 17 && cfg.featPMUv3))) ∧
  (∀ cfg : Config, res0mask cfg = ~~~ wmask cfg ∧ fixedRes0 &&& ~~~ res0mask cfg = 0#32) ∧
  fixedRes0 = 0xFF413FFF#32 ∧ wmask Config.full = 0x00BEC000#32 ∧ wmask Config.min = 0x0010C000#32 ∧
  fixedRes0 ||| 0x00BEC000#32 = 0xFFFFFFFF#32 ∧ fixedRes0 &&& 0x00BEC000#32 = 0#32

/-- 60_exceptions.md R112: SCCD prohibits `PMCCNTR` in Secure state where ARMv8.5-PMU is implemented, and never an
event counter. That SDCR's whole answer for the cycle counter is SCCD's, so that SPME does not stop `PMCCNTR`, is the
model's choice: the source does not say whether event counting includes it (R129; log 18). -/
def Obligations.SccdProhibitsTheCycleCounterOnly : Prop :=
  (∀ (cfg : Config) (env : Env) (w : Word),
    (pmccntrProhibitedBySCCD cfg env w = true ↔
      cfg.featPMU85 = true ∧ w.getLsbD 23 = true ∧ env.isSecure = true) ∧
    pmuCounterProhibitedBySDCR cfg env w .cycleCounter = .ok (pmccntrProhibitedBySCCD cfg env w)) ∧
  (∀ (cfg : Config) (env : Env) (w w' : Word), w &&& ~~~ 0x00800000#32 = w' &&& ~~~ 0x00800000#32 →
    pmuCounterProhibitedBySDCR cfg env w .eventCounter = pmuCounterProhibitedBySDCR cfg env w' .eventCounter)

/-- 60_exceptions.md R113, R114, R115: EPMAD in its two descriptions, and absent. That a Secure access is not
restricted under the first, and the unrestricting value of an absent bit, are the spec's own reading (R113
`[derived]`, D31). -/
def Obligations.EpmadRestrictsTheExternalDebugger : Prop :=
  ∀ (cfg : Config) (env : Env) (w : Word) (nonsecure : Bool),
    (cfg.featDebug84 = true → cfg.featPMUv3 = true → cfg.pmuExtDebugIf = true →
      (extPMUAccessPermittedBySDCR cfg env w nonsecure = true ↔ (nonsecure = true → w.getLsbD 21 = false))) ∧
    (cfg.featDebug84 = false → cfg.featPMUv3 = true → cfg.pmuExtDebugIf = true →
      (extPMUAccessPermittedBySDCR cfg env w nonsecure = true ↔
        w.getLsbD 21 = false ∨ env.authOverrideEPMAD = true)) ∧
    (cfg.featPMUv3 = false ∨ cfg.pmuExtDebugIf = false → extPMUAccessPermittedBySDCR cfg env w nonsecure = true)

/-- 60_exceptions.md R116, R117: EDAD in its first two descriptions. -/
def Obligations.EdadRestrictsTheExternalDebugger : Prop :=
  ∀ (cfg : Config) (env : Env) (w : Word) (target : DebugTarget) (nonsecure : Bool),
    (cfg.featDebug84 = true →
      (extDebugAccessPermittedBySDCR cfg env w target nonsecure = false ↔
        w.getLsbD 20 = true ∧ nonsecure = true ∧
          (target = .breakpoint ∨ target = .watchpoint ∨ target = .oslar))) ∧
    (cfg.featDebug84 = false → cfg.featDebug82 = true →
      (extDebugAccessPermittedBySDCR cfg env w target nonsecure = false ↔
        w.getLsbD 20 = true ∧ (target = .breakpoint ∨ target = .watchpoint ∨ target = .oslar) ∧
          env.authOverrideEDAD = false))

/-- 60_exceptions.md R118: EDAD in its third description. That the override also frees `OSLAR_EL1` is the spec's
decision D23 (log 18). -/
def Obligations.EdadWithoutDebugExtensions : Prop :=
  ∀ (cfg : Config) (env : Env) (w : Word) (target : DebugTarget) (nonsecure : Bool),
    cfg.featDebug84 = false → cfg.featDebug82 = false →
      (extDebugAccessPermittedBySDCR cfg env w target nonsecure = false ↔
        w.getLsbD 20 = true ∧
          (target = .breakpoint ∨ target = .watchpoint ∨ (target = .oslar ∧ cfg.edadCoversOSLAR = true)) ∧
          env.authOverrideEDAD = false)

/-- 60_exceptions.md R120, R121: TTRF, as SDCR's own answer for an access to `HTRFCR` or `TRFCR` that would otherwise
be permitted. That the condition is the table row's "When not in Monitor mode" and not the summary's "at EL2 and EL1" is
90_conflicts.md C1 and the spec's decision D22, and so is that scope: whether an access that its own rules would make
UNDEFINED traps, and the priority against a trap to EL2, are left open (log 18). -/
def Obligations.TtrfTrapsOutsideMonitorMode : Prop :=
  ∀ (cfg : Config) (env : Env) (w : Word),
    traceFilterAccessTrappedBySDCR cfg env w = true ↔
      cfg.featTrace84 = true ∧ w.getLsbD 19 = true ∧ env.inMonitorMode = false

/-- 60_exceptions.md R123, R124: STE, where ARMv8.4-Trace is implemented, and its Effective value. That in Non-secure
state the bit has no effect is the spec's own inference: "both rows speak of Secure state only `[derived: from the two
table rows]`" (R123). -/
def Obligations.SteGovernsTraceInSecureState : Prop :=
  ∀ (cfg : Config) (env : Env) (w : Word), cfg.featTrace84 = true →
    (cfg.haveEL3 = false → env.isSecure = true → effectiveSTE cfg env w = .ok 1#1) ∧
    (cfg.haveEL3 = true ∨ env.isSecure = false → effectiveSTE cfg env w = .ok (w.extractLsb' 18 1)) ∧
    (∀ e, effectiveSTE cfg env w = .ok e →
      secureTraceProhibitedBySDCR cfg env w =
        .ok (decide (env.isSecure = true ∧ e = 0#1 ∧ env.authOverrideSTE = false)) ∧
      (env.isSecure = true → e = 1#1 → secureTraceVerdict cfg env w = .ok .leftToTraceFilter) ∧
      (env.isSecure = true → e = 0#1 → env.authOverrideSTE = true →
        secureTraceVerdict cfg env w = .ok .overridden) ∧
      (env.isSecure = false → secureTraceVerdict cfg env w = .ok .noEffect))

/-- 60_exceptions.md R126, R127, R128: SPME, where PMUv3 is implemented, in its two descriptions, and its Effective
value. -/
def Obligations.SpmeGovernsEventCountingInSecureState : Prop :=
  ∀ (cfg : Config) (env : Env) (w : Word), cfg.featPMUv3 = true →
    (cfg.haveEL3 = false → env.isSecure = true → effectiveSPME cfg env w = .ok 1#1) ∧
    (cfg.haveEL3 = true ∨ env.isSecure = false → effectiveSPME cfg env w = .ok (w.extractLsb' 17 1)) ∧
    (∀ e, effectiveSPME cfg env w = .ok e →
      (cfg.featDebug82 = true →
        secureEventCountingProhibitedBySDCR cfg env w = .ok (decide (env.isSecure = true ∧ e = 0#1))) ∧
      (cfg.featDebug82 = false →
        secureEventCountingProhibitedBySDCR cfg env w =
          .ok (decide (env.isSecure = true ∧ e = 0#1 ∧ env.extSecureNoninvasiveDebugEnabled = false))))

/-- 60_exceptions.md R122, R129, the spec's decision D31 (log 18): a question about STE without ARMv8.4-Trace, or
about SPME without PMUv3, is refused by name, and it is refused nowhere else. -/
def Obligations.QuestionsAboutAbsentFeaturesAreRefused : Prop :=
  ∀ (cfg : Config) (env : Env) (w : Word),
    (cfg.featTrace84 = false ↔ effectiveSTE cfg env w = .error .controlNotDefined) ∧
    (cfg.featTrace84 = false ↔ secureTraceProhibitedBySDCR cfg env w = .error .controlNotDefined) ∧
    (cfg.featPMUv3 = false ↔ effectiveSPME cfg env w = .error .controlNotDefined) ∧
    (cfg.featPMUv3 = false ↔ secureEventCountingProhibitedBySDCR cfg env w = .error .controlNotDefined)

/-- 60_exceptions.md R130, R133, R134: SPD. That EL3_AARCH32 alone decides which level it governs, in an implementation
without EL3 too, is the model's choice (log 25; R134 speaks of an EL3 that is using AArch32). -/
def Obligations.SpdGovernsSecureDebugExceptions : Prop :=
  (∀ (env : Env) (w : Word),
    (w.extractLsb' 14 2 = 0b00#2 ∨ w.extractLsb' 14 2 = 0b01#2 →
      securePrivDebugExceptionsEnabledBySDCR env w = env.authSecurePrivDebug) ∧
    (w.extractLsb' 14 2 = 0b10#2 → securePrivDebugExceptionsEnabledBySDCR env w = false) ∧
    (w.extractLsb' 14 2 = 0b11#2 → securePrivDebugExceptionsEnabledBySDCR env w = true) ∧
    (∀ source, debugExceptionEnabledBySDCR env w .breakpointInstruction source = true) ∧
    (env.isSecure = false → ∀ kind source, debugExceptionEnabledBySDCR env w kind source = true) ∧
    (env.isSecure = true →
      debugExceptionEnabledBySDCR env w .other .privileged = securePrivDebugExceptionsEnabledBySDCR env w)) ∧
  (∀ cfg : Config, cfg.el3AArch32 = true → spdGovernedLevel cfg = .el3)

/-- 60_exceptions.md R132: debug exceptions from Secure EL0. The source says "only if" of `SUIDEN`; that it also
suffices, as far as SDCR goes, is the spec's reading under its decision D29 (log 18). -/
def Obligations.SecureEL0DebugFollowsPrivilegedOrSuiden : Prop :=
  ∀ (env : Env) (w : Word),
    (securePrivDebugExceptionsEnabledBySDCR env w = true → secureEL0DebugExceptionsEnabledBySDCR env w = true) ∧
    (securePrivDebugExceptionsEnabledBySDCR env w = false →
      (secureEL0DebugExceptionsEnabledBySDCR env w = true ↔ env.suiden = 1#1)) ∧
    (env.isSecure = true →
      debugExceptionEnabledBySDCR env w .other .el0 = secureEL0DebugExceptionsEnabledBySDCR env w)

/-- 10_state.md R33: a write of `0b01` to SPD is accepted; while SPD holds it every output of R130 to R134 is that of
`0b00`; a read returns the fixed read-back where the configuration has one (the spec's decision D4, log 14). -/
def Obligations.ReservedSpdBehavesAsLegacyMode : Prop :=
  (∀ (s : State) (i : Instr) (k : Fin 15), i.wf = true → i.dir = .write → i.rt.toNat = k.val →
    s.env.conditionPassed = true → s.env.el = .el3 → ¬ WriteBlocked s.env → (s.getReg k).extractLsb' 14 2 = 0b01#2 →
    ∃ t, exec i s = .next t ∧ t.sdcr.extractLsb' 14 2 = 0b01#2) ∧
  (∀ (env : Env) (w : Word), w.extractLsb' 14 2 = 0b01#2 →
    securePrivDebugExceptionsEnabledBySDCR env w =
      securePrivDebugExceptionsEnabledBySDCR env (w &&& ~~~ 0x0000C000#32) ∧
    secureEL0DebugExceptionsEnabledBySDCR env w =
      secureEL0DebugExceptionsEnabledBySDCR env (w &&& ~~~ 0x0000C000#32) ∧
    (∀ kind source, debugExceptionEnabledBySDCR env w kind source =
      debugExceptionEnabledBySDCR env (w &&& ~~~ 0x0000C000#32) kind source)) ∧
  (∀ (s : State) (i : Instr) (k : Fin 15) (b : BitVec 2), i.wf = true → i.dir = .read → i.rt.toNat = k.val →
    s.env.conditionPassed = true → s.env.el = .el3 → s.sdcr.extractLsb' 14 2 = 0b01#2 →
    s.cfg.spdReservedReadback = some b →
    ∃ t, exec i s = .next t ∧ (t.getReg k).extractLsb' 14 2 = b ∧ t.sdcr = s.sdcr)

/-- 70_reset_and_hazards.md R141: every control output just after a reset into EL3 using AArch32, for any inputs; for
Secure EL0 by 60_exceptions.md R132, where that `SUIDEN` suffices is the spec's reading under its decision D29 (log
18). (That no older value may still be acted on is the model's reading, log 17.) -/
def Obligations.ControlsJustAfterReset : Prop :=
  ∀ (s : State) (rest : List Action), s.agenda = .event .reset :: rest →
    s.cfg.haveEL3 = true → s.cfg.el3AArch32 = true →
    ∃ t, step s = .next t ∧ t.observable = [t.sdcr] ∧ ∀ env : Env,
      pmccntrProhibitedBySCCD t.cfg env t.sdcr = false ∧
      (∀ ns, extPMUAccessPermittedBySDCR t.cfg env t.sdcr ns = true) ∧
      (∀ target ns, extDebugAccessPermittedBySDCR t.cfg env t.sdcr target ns = true) ∧
      traceFilterAccessTrappedBySDCR t.cfg env t.sdcr = false ∧
      (t.cfg.featTrace84 = true →
        secureTraceProhibitedBySDCR t.cfg env t.sdcr = .ok (env.isSecure && !env.authOverrideSTE)) ∧
      (t.cfg.featPMUv3 = true → t.cfg.featDebug82 = true →
        secureEventCountingProhibitedBySDCR t.cfg env t.sdcr = .ok env.isSecure) ∧
      (t.cfg.featPMUv3 = true → t.cfg.featDebug82 = false →
        secureEventCountingProhibitedBySDCR t.cfg env t.sdcr =
          .ok (env.isSecure && !env.extSecureNoninvasiveDebugEnabled)) ∧
      securePrivDebugExceptionsEnabledBySDCR env t.sdcr = env.authSecurePrivDebug ∧
      secureEL0DebugExceptionsEnabledBySDCR env t.sdcr = (env.authSecurePrivDebug || env.suiden == 1#1) ∧
      (∀ source, debugExceptionEnabledBySDCR env t.sdcr .breakpointInstruction source = true) ∧
      spdGovernedLevel t.cfg = .el3

/-- 95_test_vectors.md section 2.8, point 5 (10_state.md R36, the spec's decision D3): no control output depends on a
RES0 bit. -/
def Obligations.ControlsIgnoreRes0Bits : Prop :=
  ∀ (cfg : Config) (env : Env) (w w' : Word), w &&& wmask cfg = w' &&& wmask cfg →
    pmccntrProhibitedBySCCD cfg env w = pmccntrProhibitedBySCCD cfg env w' ∧
    (∀ ns, extPMUAccessPermittedBySDCR cfg env w ns = extPMUAccessPermittedBySDCR cfg env w' ns) ∧
    (∀ target ns, extDebugAccessPermittedBySDCR cfg env w target ns =
      extDebugAccessPermittedBySDCR cfg env w' target ns) ∧
    traceFilterAccessTrappedBySDCR cfg env w = traceFilterAccessTrappedBySDCR cfg env w' ∧
    secureTraceVerdict cfg env w = secureTraceVerdict cfg env w' ∧
    secureTraceProhibitedBySDCR cfg env w = secureTraceProhibitedBySDCR cfg env w' ∧
    secureEventCountingProhibitedBySDCR cfg env w = secureEventCountingProhibitedBySDCR cfg env w' ∧
    (∀ counter, pmuCounterProhibitedBySDCR cfg env w counter = pmuCounterProhibitedBySDCR cfg env w' counter) ∧
    securePrivDebugExceptionsEnabledBySDCR env w = securePrivDebugExceptionsEnabledBySDCR env w' ∧
    secureEL0DebugExceptionsEnabledBySDCR env w = secureEL0DebugExceptionsEnabledBySDCR env w' ∧
    (∀ kind source, debugExceptionEnabledBySDCR env w kind source = debugExceptionEnabledBySDCR env w' kind source)
end

