-- ==== Sys2Proof/Laws/Ops.lean ====
section
/-!
SUPPORT. The instruction bytes keep their canonical form, and read-over-write; which register an `Rt` names.
-/

namespace Sys2Proof.Machine

open Sys2Proof

/-! ### Instruction bytes -/

@[simp] theorem Memory.get_set_self (m : Memory) (a : Nat) (b : Byte) :
    Memory.get (Memory.set m a b) a = some b := by
  induction m with
  | nil => simp [Memory.set, Memory.get]
  | cons p rest ih =>
    obtain ⟨k, c⟩ := p
    simp only [Memory.set]
    split
    · simp [Memory.get]
    · split
      · simp [Memory.get]
      · rename_i h
        simp [Memory.get, Ne.symm h, ih]

theorem Memory.get_set_of_ne (m : Memory) {a a' : Nat} (b : Byte) (h : a' ≠ a) :
    Memory.get (Memory.set m a b) a' = Memory.get m a' := by
  induction m with
  | nil => simp [Memory.set, Memory.get, Ne.symm h]
  | cons p rest ih =>
    obtain ⟨k, c⟩ := p
    simp only [Memory.set]
    split
    · simp [Memory.get, Ne.symm h]
    · split
      · rename_i hk
        subst hk
        simp [Memory.get, Ne.symm h]
      · simp [Memory.get, ih]

theorem Memory.mem_set {m : Memory} {a : Nat} {b : Byte} {p : Host.Cell} (h : p ∈ Memory.set m a b) :
    p = (a, b) ∨ p ∈ m := by
  induction m with
  | nil => simpa [Memory.set] using h
  | cons q rest ih =>
    obtain ⟨k, c⟩ := q
    simp only [Memory.set] at h
    split at h
    · simpa using h
    · split at h
      · rcases List.mem_cons.1 h with h | h
        · exact .inl h
        · exact .inr (List.mem_cons_of_mem _ h)
      · rcases List.mem_cons.1 h with h | h
        · exact .inr (h ▸ List.mem_cons_self)
        · rcases ih h with h | h
          · exact .inl h
          · exact .inr (List.mem_cons_of_mem _ h)

theorem Memory.set_wf {m : Memory} {a : Nat} (b : Byte) (hm : Memory.wf m) (ha : a < 0x100000000) :
    Memory.wf (Memory.set m a b) := by
  refine ⟨?_, fun p hp => ?_⟩
  · obtain ⟨hp, -⟩ := hm
    induction m with
    | nil => simp [Memory.set]
    | cons q rest ih =>
      obtain ⟨k, c⟩ := q
      obtain ⟨hk, hrest⟩ := List.pairwise_cons.1 hp
      simp only [Memory.set]
      split
      · rename_i hlt
        refine List.pairwise_cons.2 ⟨fun p hp' => ?_, hp⟩
        rcases List.mem_cons.1 hp' with rfl | hp'
        · exact hlt
        · exact Nat.lt_trans hlt (hk p hp')
      · split
        · rename_i heq
          subst heq
          exact List.pairwise_cons.2 ⟨hk, hrest⟩
        · rename_i hge hne
          refine List.pairwise_cons.2 ⟨fun p hp' => ?_, ih hrest⟩
          rcases Memory.mem_set hp' with rfl | hp'
          · show k < a
            omega
          · exact hk p hp'
  · rcases Memory.mem_set hp with rfl | hp
    · exact ha
    · exact hm.2 p hp

theorem Memory.setBytes_wf {m : Memory} (bs : List Byte) (a : Word) (hm : Memory.wf m) :
    Memory.wf (Memory.setBytes m a bs) := by
  induction bs generalizing m a with
  | nil => exact hm
  | cons b bs ih => exact ih _ (Memory.set_wf b hm a.isLt)

theorem Memory.nil_wf : Memory.wf [] := by simp [Memory.wf]

/-- A byte outside the four written keeps its value. -/
theorem Memory.get_setBytes_four_of_ne (m : Memory) (a : Word) (b0 b1 b2 b3 : Byte) {k : Nat}
    (h0 : k ≠ a.toNat) (h1 : k ≠ (a + 1#32).toNat) (h2 : k ≠ (a + 2#32).toNat) (h3 : k ≠ (a + 3#32).toNat) :
    Memory.get (Memory.setBytes m a [b0, b1, b2, b3]) k = Memory.get m k := by
  have e2 : a + 1#32 + 1#32 = a + 2#32 := by rw [BitVec.add_assoc]; rfl
  have e3 : a + 2#32 + 1#32 = a + 3#32 := by rw [BitVec.add_assoc]; rfl
  simp only [Memory.setBytes, e2, e3]
  rw [Memory.get_set_of_ne _ _ h3, Memory.get_set_of_ne _ _ h2, Memory.get_set_of_ne _ _ h1,
    Memory.get_set_of_ne _ _ h0]

/-- Four bytes written at an address are the four bytes read there. -/
theorem Memory.getBytes_setBytes_four (m : Memory) (a : Word) (b0 b1 b2 b3 : Byte) :
    Memory.getBytes (Memory.setBytes m a [b0, b1, b2, b3]) a 4 = some [b0, b1, b2, b3] := by
  have h01 : a.toNat ≠ (a + 1#32).toNat := by simp [BitVec.toNat_add]; omega
  have h02 : a.toNat ≠ (a + 1#32 + 1#32).toNat := by simp [BitVec.toNat_add]; omega
  have h03 : a.toNat ≠ (a + 1#32 + 1#32 + 1#32).toNat := by simp [BitVec.toNat_add]; omega
  have h12 : (a + 1#32).toNat ≠ (a + 1#32 + 1#32).toNat := by simp [BitVec.toNat_add]; omega
  have h13 : (a + 1#32).toNat ≠ (a + 1#32 + 1#32 + 1#32).toNat := by simp [BitVec.toNat_add]; omega
  have h23 : (a + 1#32 + 1#32).toNat ≠ (a + 1#32 + 1#32 + 1#32).toNat := by simp [BitVec.toNat_add]; omega
  simp only [Memory.setBytes, Memory.getBytes]
  rw [Memory.get_set_self, Memory.get_set_of_ne _ _ h23, Memory.get_set_self, Memory.get_set_of_ne _ _ h13,
    Memory.get_set_of_ne _ _ h12, Memory.get_set_self, Memory.get_set_of_ne _ _ h03, Memory.get_set_of_ne _ _ h02,
    Memory.get_set_of_ne _ _ h01, Memory.get_set_self]

/-! ### Operands -/

theorem rtIndex_of_val {rt : BitVec 4} {k : Fin 15} (h : rt.toNat = k.val) : rtIndex rt = some k := by
  simp [rtIndex, h, k.isLt]

theorem rtIndex_eq_some {rt : BitVec 4} {k : Fin 15} : rtIndex rt = some k ↔ rt.toNat = k.val := by
  refine ⟨fun h => ?_, rtIndex_of_val⟩
  unfold rtIndex at h
  split at h
  · simp only [Option.some.injEq] at h
    rw [← h]
  · cases h

theorem rtIndex_eq_none {rt : BitVec 4} : rtIndex rt = none ↔ rt = 15#4 := by
  revert rt
  decide

theorem rtOk_iff_rtIndex {rt : BitVec 4} : rtOk rt = true ↔ ∃ k, rtIndex rt = some k := by
  rw [← Option.ne_none_iff_exists', ne_eq, rtIndex_eq_none]
  simp [rtOk]

end Sys2Proof.Machine
end

