-- ==== Sys2Proof/Laws/State.lean ====
section
/-!
SUPPORT. One lemma for each field and each named update of State, true by rfl, so that no proof unfolds a record
update.
-/

namespace Sys2Proof.Machine

open Sys2Proof

@[simp] theorem State.setReg_cfg (s : State) (i v) : (s.setReg i v).cfg = s.cfg := rfl
@[simp] theorem State.setReg_sdcr (s : State) (i v) : (s.setReg i v).sdcr = s.sdcr := rfl
@[simp] theorem State.setReg_pc (s : State) (i v) : (s.setReg i v).pc = s.pc := rfl
@[simp] theorem State.setReg_env (s : State) (i v) : (s.setReg i v).env = s.env := rfl
@[simp] theorem State.setReg_unsynced (s : State) (i v) : (s.setReg i v).unsynced = s.unsynced := rfl
@[simp] theorem State.setReg_draws (s : State) (i v) : (s.setReg i v).draws = s.draws := rfl
@[simp] theorem State.setReg_code (s : State) (i v) : (s.setReg i v).code = s.code := rfl
@[simp] theorem State.setReg_agenda (s : State) (i v) : (s.setReg i v).agenda = s.agenda := rfl

@[simp] theorem State.getReg_setReg_self (s : State) (i v) : (s.setReg i v).getReg i = v := by
  simp [State.getReg, State.setReg]

theorem State.getReg_setReg_of_ne (s : State) {i j : Fin 15} (v) (h : j ≠ i) :
    (s.setReg i v).getReg j = s.getReg j := by
  have h' : i.val ≠ j.val := fun e => h (Fin.ext e.symm)
  simp [State.getReg, State.setReg, Vector.getElem_set_ne, h']

@[simp] theorem State.advancePc_cfg (s : State) : s.advancePc.cfg = s.cfg := rfl
@[simp] theorem State.advancePc_sdcr (s : State) : s.advancePc.sdcr = s.sdcr := rfl
@[simp] theorem State.advancePc_x (s : State) : s.advancePc.x = s.x := rfl
@[simp] theorem State.advancePc_pc (s : State) : s.advancePc.pc = s.pc + 4#32 := rfl
@[simp] theorem State.advancePc_env (s : State) : s.advancePc.env = s.env := rfl
@[simp] theorem State.advancePc_unsynced (s : State) : s.advancePc.unsynced = s.unsynced := rfl
@[simp] theorem State.advancePc_draws (s : State) : s.advancePc.draws = s.draws := rfl
@[simp] theorem State.advancePc_code (s : State) : s.advancePc.code = s.code := rfl
@[simp] theorem State.advancePc_agenda (s : State) : s.advancePc.agenda = s.agenda := rfl
@[simp] theorem State.advancePc_getReg (s : State) (i) : s.advancePc.getReg i = s.getReg i := rfl

@[simp] theorem State.writeSDCR_cfg (s : State) (v) : (s.writeSDCR v).cfg = s.cfg := rfl
@[simp] theorem State.writeSDCR_sdcr (s : State) (v) : (s.writeSDCR v).sdcr = writeValue s.cfg v := rfl
@[simp] theorem State.writeSDCR_x (s : State) (v) : (s.writeSDCR v).x = s.x := rfl
@[simp] theorem State.writeSDCR_pc (s : State) (v) : (s.writeSDCR v).pc = s.pc := rfl
@[simp] theorem State.writeSDCR_env (s : State) (v) : (s.writeSDCR v).env = s.env := rfl
@[simp] theorem State.writeSDCR_unsynced (s : State) (v) :
    (s.writeSDCR v).unsynced = s.sdcr :: s.unsynced := rfl
@[simp] theorem State.writeSDCR_draws (s : State) (v) : (s.writeSDCR v).draws = s.draws := rfl
@[simp] theorem State.writeSDCR_code (s : State) (v) : (s.writeSDCR v).code = s.code := rfl
@[simp] theorem State.writeSDCR_agenda (s : State) (v) : (s.writeSDCR v).agenda = s.agenda := rfl

@[simp] theorem State.sync_cfg (s : State) : s.sync.cfg = s.cfg := rfl
@[simp] theorem State.sync_sdcr (s : State) : s.sync.sdcr = s.sdcr := rfl
@[simp] theorem State.sync_x (s : State) : s.sync.x = s.x := rfl
@[simp] theorem State.sync_pc (s : State) : s.sync.pc = s.pc := rfl
@[simp] theorem State.sync_env (s : State) : s.sync.env = s.env := rfl
@[simp] theorem State.sync_unsynced (s : State) : s.sync.unsynced = [] := rfl
@[simp] theorem State.sync_draws (s : State) : s.sync.draws = s.draws := rfl
@[simp] theorem State.sync_code (s : State) : s.sync.code = s.code := rfl
@[simp] theorem State.sync_agenda (s : State) : s.sync.agenda = s.agenda := rfl

/-- Everything a read of SDCR can do: the state changes at most in its count of draws, and the value is the stored
one but for bits [15:14] while SPD holds `0b01` (10_state.md R39). -/
theorem State.readSDCR_cases (s : State) :
    (spd s.sdcr ≠ 0b01#2 ∧ s.readSDCR = (s.sdcr, s)) ∨
    (∃ b, spd s.sdcr = 0b01#2 ∧ s.cfg.spdReservedReadback = some b ∧ s.readSDCR = (withSpd s.sdcr b, s)) ∨
    (spd s.sdcr = 0b01#2 ∧ s.cfg.spdReservedReadback = none ∧
      s.readSDCR =
        (withSpd s.sdcr (Config.freeSpdReadback s.draws), { s with draws := s.draws + 1 })) := by
  by_cases h : spd s.sdcr = 0b01#2
  · cases hb : s.cfg.spdReservedReadback with
    | none => exact .inr (.inr ⟨h, rfl, by simp [State.readSDCR, h, hb]⟩)
    | some b => exact .inr (.inl ⟨b, h, rfl, by simp [State.readSDCR, h, hb]⟩)
  · exact .inl ⟨h, by simp [State.readSDCR, h]⟩

/-- A read of SDCR changes no field but the count of draws. -/
theorem State.readSDCR_state (s : State) : ∃ n, s.readSDCR.2 = { s with draws := n } := by
  rcases s.readSDCR_cases with ⟨_, h⟩ | ⟨_, _, _, h⟩ | ⟨_, _, h⟩
  · exact ⟨s.draws, by rw [h]⟩
  · exact ⟨s.draws, by rw [h]⟩
  · exact ⟨s.draws + 1, by rw [h]⟩

/-- Everything a reset can do (10_state.md R38, 70_reset_and_hazards.md R140): the new SDCR has bits only where the
spec leaves the reset value open, and the PE is at the level it resets into. -/
theorem State.applyReset_cases (s : State) :
    ∃ v n, s.applyReset =
      { s with
        sdcr := v &&& resetDrawMask s.cfg, unsynced := [], draws := n
        env := { s.env with el := resetLevel s.cfg } } := by
  by_cases h : resetDrawMask s.cfg = 0#32
  · exact ⟨0#32, s.draws, by simp [State.applyReset, State.resetSDCR, h]⟩
  · exact ⟨Config.freeResetBits s.draws, s.draws + 1, by simp [State.applyReset, State.resetSDCR, h]⟩

@[simp] theorem State.applyReset_cfg (s : State) : s.applyReset.cfg = s.cfg := rfl
@[simp] theorem State.applyReset_sdcr (s : State) : s.applyReset.sdcr = s.resetSDCR.1 := rfl
@[simp] theorem State.applyReset_x (s : State) : s.applyReset.x = s.x := rfl
@[simp] theorem State.applyReset_pc (s : State) : s.applyReset.pc = s.pc := rfl
@[simp] theorem State.applyReset_env (s : State) :
    s.applyReset.env = { s.env with el := resetLevel s.cfg } := rfl
@[simp] theorem State.applyReset_unsynced (s : State) : s.applyReset.unsynced = [] := rfl
@[simp] theorem State.applyReset_draws (s : State) : s.applyReset.draws = s.resetSDCR.2 := rfl
@[simp] theorem State.applyReset_code (s : State) : s.applyReset.code = s.code := rfl
@[simp] theorem State.applyReset_agenda (s : State) : s.applyReset.agenda = s.agenda := rfl

/-- 70_reset_and_hazards.md R142: a PE that implements EL3 resets into EL3. -/
theorem resetLevel_of_haveEL3 {cfg : Config} (h : cfg.haveEL3 = true) : resetLevel cfg = .el3 := by
  simp [resetLevel, h]

end Sys2Proof.Machine
end

