-- ==== Sys2Proof/Laws/Access.lean ====
section
/-!
SUPPORT. Everything an access can do, once: the inversion of `finishAccess` and of `exec`.
-/

namespace Sys2Proof.Machine

open Sys2Proof

/-- If an access answers a next state, it completed, or its condition failed. -/
theorem finishAccess_next {o : AccessOutcome} {s t : State} {f : State → State}
    (h : finishAccess o s f = .next t) :
    (o = .completed ∧ t = (f s).advancePc) ∨ (o = .conditionFailed ∧ t = s.advancePc) := by
  cases o with
  | completed => exact .inl ⟨rfl, by simpa [finishAccess] using h.symm⟩
  | conditionFailed => exact .inr ⟨rfl, by simpa [finishAccess] using h.symm⟩
  | raised f => simp [finishAccess, raise] at h
  | refused r => simp [finishAccess] at h

/-- The transfer an instruction makes when it completes. -/
def transferOf (i : Instr) (k : Fin 15) : State → State :=
  match i.dir with
  | .read => readTransfer k
  | .write => writeTransfer k

/-- A well-formed instruction is the access of its direction and register. -/
theorem exec_eq_finishAccess {i : Instr} {k : Fin 15} (s : State) (hw : i.wf = true) (hk : rtIndex i.rt = some k) :
    exec i s = finishAccess (accessOutcome i.dir s.cfg s.env) s (transferOf i k) := by
  cases i with
  | mrcA32 c rt =>
    simp only [Instr.wf, Bool.and_eq_true] at hw
    simp only [Instr.rt] at hk
    simp [exec, execMrcA32, a32Form, hw.1, readAccess, hk, Instr.dir, transferOf]
  | mcrA32 c rt =>
    simp only [Instr.wf, Bool.and_eq_true] at hw
    simp only [Instr.rt] at hk
    simp [exec, execMcrA32, a32Form, hw.1, writeAccess, hk, Instr.dir, transferOf]
  | mrcT32 rt =>
    simp only [Instr.rt] at hk
    simp [exec, execMrcT32, readAccess, hk, Instr.dir, transferOf]
  | mcrT32 rt =>
    simp only [Instr.rt] at hk
    simp [exec, execMcrT32, writeAccess, hk, Instr.dir, transferOf]

/-- `Rt` of a well-formed instruction names a register. -/
theorem Instr.wf_rtIndex {i : Instr} (hw : i.wf = true) : ∃ k, rtIndex i.rt = some k := by
  cases i <;> simp only [Instr.wf, Bool.and_eq_true] at hw
  · exact rtOk_iff_rtIndex.1 hw.2
  · exact rtOk_iff_rtIndex.1 hw.2
  · exact rtOk_iff_rtIndex.1 hw
  · exact rtOk_iff_rtIndex.1 hw

/-- An instruction that is not well-formed is refused, by one of two names (30_encoding.md R63, R67). -/
theorem exec_of_not_wf {i : Instr} (s : State) (h : i.wf = false) :
    exec i s = .refused .rtIs15 ∨ exec i s = .refused .notSDCR := by
  have hrt : ∀ {rt : BitVec 4}, rtOk rt = false → rtIndex rt = none := by
    intro rt h
    exact rtIndex_eq_none.2 (by simpa [rtOk] using h)
  cases i with
  | mrcA32 c rt =>
    cases hc : condOk c
    · exact .inr (by simp [exec, execMrcA32, a32Form, hc])
    · simp only [Instr.wf, hc, Bool.true_and] at h
      exact .inl (by simp [exec, execMrcA32, a32Form, hc, readAccess, hrt h])
  | mcrA32 c rt =>
    cases hc : condOk c
    · exact .inr (by simp [exec, execMcrA32, a32Form, hc])
    · simp only [Instr.wf, hc, Bool.true_and] at h
      exact .inl (by simp [exec, execMcrA32, a32Form, hc, writeAccess, hrt h])
  | mrcT32 rt => exact .inl (by simp [exec, execMrcT32, readAccess, hrt h])
  | mcrT32 rt => exact .inl (by simp [exec, execMcrT32, writeAccess, hrt h])

/-- An instruction that is not well-formed answers no next state. -/
theorem exec_not_wf {i : Instr} {s t : State} (h : exec i s = .next t) : i.wf = true := by
  cases hw : i.wf
  · rcases exec_of_not_wf s hw with h' | h' <;> rw [h'] at h <;> cases h
  · rfl

/-- Everything an instruction can do when it answers a next state: its transfer and the pc, or the pc alone. -/
theorem exec_next {i : Instr} {s t : State} (h : exec i s = .next t) :
    i.wf = true ∧
    ((∃ k, rtIndex i.rt = some k ∧ accessOutcome i.dir s.cfg s.env = .completed ∧ t = (transferOf i k s).advancePc) ∨
      (accessOutcome i.dir s.cfg s.env = .conditionFailed ∧ t = s.advancePc)) := by
  have hw := exec_not_wf h
  obtain ⟨k, hk⟩ := Instr.wf_rtIndex hw
  rw [exec_eq_finishAccess s hw hk] at h
  rcases finishAccess_next h with ⟨ho, ht⟩ | h
  · exact ⟨hw, .inl ⟨k, hk, ho, ht⟩⟩
  · exact ⟨hw, .inr h⟩

/-- No arm at EL1 completes (40_sdcr_access.md R82). -/
theorem el1Outcome_stops (cfg : Config) (env : Env) :
    (∃ f, el1Outcome cfg env = .raised f) ∨ el1Outcome cfg env = .refused .absentEL := by
  have step : ∀ (c : Option Bool) (f : Fault) (o : AccessOutcome),
      ((∃ g, o = .raised g) ∨ o = .refused .absentEL) →
      (∃ g, elifArm c (.raised f) o = .raised g) ∨ elifArm c (.raised f) o = .refused .absentEL := by
    intro c f o ho
    cases c with
    | none => exact .inr rfl
    | some b =>
      cases b
      · exact ho
      · exact .inl ⟨f, rfl⟩
  exact step _ _ _ (step _ _ _ (step _ _ _ (step _ _ _ (.inl ⟨_, rfl⟩))))

/-- An access completes only at EL3, with its condition passed, and a write only when it is not blocked
(60_exceptions.md R110). -/
theorem accessOutcome_completed {dir : Dir} {cfg : Config} {env : Env}
    (h : accessOutcome dir cfg env = .completed) :
    env.conditionPassed = true ∧ env.el = .el3 ∧
      (dir = .write → ¬ (env.scrNS = 0#1 ∧ env.cp15sdisable2 = .high)) := by
  unfold accessOutcome at h
  split at h
  · cases h
  · rename_i hc
    refine ⟨by simpa [conditionPassed] using hc, ?_⟩
    split at h
    · cases h
    · rcases el1Outcome_stops cfg env with ⟨f, hf⟩ | hf <;> rw [hf] at h <;> cases h
    · cases h
    · rename_i hel
      refine ⟨hel, fun hd => ?_⟩
      subst hd
      simp only [el3Outcome] at h
      split at h
      · cases h
      · assumption

/-- An access ends `ConditionFailed` exactly where its condition does not pass (30_encoding.md R66). -/
theorem accessOutcome_conditionFailed {dir : Dir} {cfg : Config} {env : Env}
    (h : accessOutcome dir cfg env = .conditionFailed) : env.conditionPassed = false := by
  unfold accessOutcome at h
  split at h
  · rename_i hc
    simpa [conditionPassed] using hc
  · split at h
    · cases h
    · rcases el1Outcome_stops cfg env with ⟨f, hf⟩ | hf <;> rw [hf] at h <;> cases h
    · cases h
    · unfold el3Outcome at h
      split at h
      · cases h
      · split at h <;> cases h

/-! ### Where an access stops -/

theorem finishAccess_fault {o : AccessOutcome} {s : State} {f : State → State} {e : Fault}
    (h : finishAccess o s f = .fault e) : o = .raised e := by
  cases o <;> simp_all [finishAccess, raise]

theorem finishAccess_refused {o : AccessOutcome} {s : State} {f : State → State} {r : Refusal}
    (h : finishAccess o s f = .refused r) : o = .refused r := by
  cases o <;> simp_all [finishAccess, raise]

/-- An access raises an exception only with its condition passed, and at EL3 only as a blocked write
(60_exceptions.md R100 to R103). -/
theorem accessOutcome_raised {dir : Dir} {cfg : Config} {env : Env} {f : Fault}
    (h : accessOutcome dir cfg env = .raised f) :
    env.conditionPassed = true ∧
      (env.el = .el3 → dir = .write ∧ env.scrNS = 0#1 ∧ env.cp15sdisable2 = .high) := by
  unfold accessOutcome at h
  split at h
  · cases h
  · rename_i hc
    refine ⟨by simpa [conditionPassed] using hc, fun hel => ?_⟩
    simp only [hel, el3Outcome] at h
    split at h
    · cases h
    · split at h
      · exact ⟨rfl, ‹_›⟩
      · cases h

/-- An access is refused only as `absentEL`, at EL1 and with its condition passed (92_eei_decisions.md D8). -/
theorem accessOutcome_refused {dir : Dir} {cfg : Config} {env : Env} {r : Refusal}
    (h : accessOutcome dir cfg env = .refused r) :
    r = .absentEL ∧ env.el = .el1 ∧ env.conditionPassed = true := by
  unfold accessOutcome at h
  split at h
  · cases h
  · rename_i hc
    have hp : env.conditionPassed = true := by simpa [conditionPassed] using hc
    split at h
    · cases h
    · rename_i hel
      rcases el1Outcome_stops cfg env with ⟨f, hf⟩ | hf <;> rw [hf] at h <;> cases h
      exact ⟨rfl, hel, hp⟩
    · cases h
    · unfold el3Outcome at h
      split at h
      · cases h
      · split at h <;> cases h

/-- Everything an instruction that ends in an exception is. -/
theorem exec_fault {i : Instr} {s : State} {f : Fault} (h : exec i s = .fault f) :
    i.wf = true ∧ accessOutcome i.dir s.cfg s.env = .raised f := by
  cases hw : i.wf
  · rcases exec_of_not_wf s hw with h' | h' <;> rw [h'] at h <;> cases h
  · obtain ⟨k, hk⟩ := Instr.wf_rtIndex hw
    rw [exec_eq_finishAccess s hw hk] at h
    exact ⟨rfl, finishAccess_fault h⟩

/-- Everything an instruction that is refused is. -/
theorem exec_refused {i : Instr} {s : State} {r : Refusal} (h : exec i s = .refused r) :
    (i.wf = true ∧ accessOutcome i.dir s.cfg s.env = .refused r) ∨
    (i.wf = false ∧ (r = .rtIs15 ∨ r = .notSDCR)) := by
  cases hw : i.wf
  · refine .inr ⟨rfl, ?_⟩
    rcases exec_of_not_wf s hw with h' | h' <;> rw [h'] at h <;> cases h
    · exact .inl rfl
    · exact .inr rfl
  · obtain ⟨k, hk⟩ := Instr.wf_rtIndex hw
    rw [exec_eq_finishAccess s hw hk] at h
    exact .inl ⟨rfl, finishAccess_refused h⟩

end Sys2Proof.Machine
end

