-- ==== Sys2Proof/Laws/Decode.lean ====
section
/-!
SUPPORT. The byte layer loses nothing: four bytes and the word they make.
-/

namespace Sys2Proof

/-- A word cut into its four bytes and put together again. -/
theorem append_bytes (w : Word) :
    w.extractLsb' 24 8 ++ w.extractLsb' 16 8 ++ w.extractLsb' 8 8 ++ w.extractLsb' 0 8 = w := by
  apply BitVec.eq_of_toNat_eq
  simp only [BitVec.toNat_append, BitVec.extractLsb'_toNat, Nat.shiftRight_eq_div_pow]
  have h := w.isLt
  rw [← Nat.shiftLeft_add_eq_or_of_lt (by omega), ← Nat.shiftLeft_add_eq_or_of_lt (by omega),
    ← Nat.shiftLeft_add_eq_or_of_lt (by omega)]
  simp only [Nat.shiftLeft_eq]
  omega

/-- The bytes of a word make the word again. -/
theorem wordOfBytes_bytesOfWord (set : InstrSet) (w : Word) :
    ∃ b0 b1 b2 b3, bytesOfWord set w = [b0, b1, b2, b3] ∧ wordOfBytes set b0 b1 b2 b3 = w := by
  cases set
  · exact ⟨_, _, _, _, rfl, append_bytes w⟩
  · exact ⟨_, _, _, _, rfl, append_bytes w⟩

/-- Decoding the bytes of a word is decoding the word. -/
theorem decode_bytesOfWord (set : InstrSet) (w : Word) (rest : List Byte) :
    decode set (bytesOfWord set w ++ rest) = (decodeWord set w).map (·, rest) := by
  obtain ⟨b0, b1, b2, b3, hb, hw⟩ := wordOfBytes_bytesOfWord set w
  rw [hb, List.cons_append, List.cons_append, List.cons_append, List.cons_append, List.nil_append, decode, hw]
  cases decodeWord set w <;> rfl

/-- Why a word is no instruction: never for want of bytes. -/
theorem decodeWord_error {set : InstrSet} {w : Word} {e : DecodeError} (h : decodeWord set w = .error e) :
    e = .notSDCR ∨ e = .rtIs15 := by
  unfold decodeWord decodeRecord at h
  split at h
  · rename_i r _
    unfold recordInstr at h
    split at h
    · exact .inl (by simpa using h.symm)
    · split at h
      · exact .inr (by simpa using h.symm)
      · cases h
  · rename_i e' he
    split at he
    · cases he
    · cases he
      exact .inl (by simpa using h.symm)

/-- What a word decodes to is well-formed (30_encoding.md R63, R67, R70). -/
theorem decodeWord_wf {set : InstrSet} {w : Word} {i : Instr} (h : decodeWord set w = .ok i) : i.wf = true := by
  unfold decodeWord decodeRecord at h
  split at h
  · rename_i r hr
    split at hr
    · rename_i hc
      simp only [Bool.and_eq_true] at hc
      unfold recordInstr at h
      split at h
      · cases h
      · split at h
        · cases h
        · rename_i hrt
          cases h
          cases hr
          have hrt' : rtOk (w.extractLsb' 12 4) = true := by simpa using hrt
          cases set
          · have hcond : condOk (w.extractLsb' 28 4) = true := hc.1.1
            split <;> simp [instrOf, Instr.wf, hcond, hrt']
          · split <;> simp [instrOf, Instr.wf, hrt']
    · cases hr
  · cases h

end Sys2Proof
end

