-- ==== Sys2Proof/Laws/Fields.lean ====
section
/-!
SUPPORT. The masks: fields are never hardwired, what a write keeps, what a reset leaves open.
-/

namespace Sys2Proof.Machine

open Sys2Proof

/-- A bit of the complement and the vector itself have nothing in common. -/
theorem and_and_not_self (v m : Word) : v &&& m &&& ~~~ m = 0#32 := by
  rw [BitVec.and_assoc]
  simp

/-- A written value is 0 in every hardwired bit (10_state.md R37). -/
theorem writeValue_hardwired (cfg : Config) (v : Word) : writeValue cfg v &&& ~~~ stored cfg = 0#32 :=
  and_and_not_self v (stored cfg)

/-- No field of SDCR is in a bit that is hardwired. -/
theorem wmask_and_not_stored (cfg : Config) : wmask cfg &&& ~~~ stored cfg = 0#32 := by
  ext n hn
  simp only [stored, BitVec.getElem_and, BitVec.getElem_not, BitVec.getElem_or, BitVec.getElem_zero]
  cases (wmask cfg)[n] <;> simp

/-- What a reset leaves open is in the stored bits (10_state.md R38). -/
theorem resetDrawMask_stored (cfg : Config) (v : Word) :
    v &&& resetDrawMask cfg &&& ~~~ stored cfg = 0#32 := by
  ext n hn
  simp only [resetDrawMask, res0mask, stored, BitVec.getElem_and, BitVec.getElem_not, BitVec.getElem_or,
    BitVec.getElem_zero]
  split
  · cases v[n] <;> cases (wmask cfg)[n] <;> cases cfg.res0StoreMask[n] <;> simp
  · cases v[n] <;> cases (wmask cfg)[n] <;> cases cfg.res0StoreMask[n] <;> simp

/-- After a reset into EL3 using AArch32 no field bit is left open. -/
theorem resetDrawMask_fields {cfg : Config} (h3 : cfg.haveEL3 = true) (h32 : cfg.el3AArch32 = true) :
    resetDrawMask cfg &&& wmask cfg = 0#32 := by
  ext n hn
  simp only [resetDrawMask, res0mask, h3, h32, Bool.and_self, if_true, BitVec.getElem_and, BitVec.getElem_not,
    BitVec.getElem_or, BitVec.getElem_zero]
  cases (wmask cfg)[n] <;> simp

end Sys2Proof.Machine
end

