-- ==== Sys2Proof/Laws/PerInstr.lean ====
section
/-!
SUPPORT. Family by family, one lemma for each constructor of Instr.
-/

namespace Sys2Proof.Laws

open Sys2Proof

/-- The record an instruction stands for selects SDCR (30_encoding.md R61, R62), with the instruction's direction and
register, and its encoding is four bytes long (R72). -/
def SelectsSDCR.Statement (i : Instr) : Prop :=
  i.toRecord.selectsSDCR = true ∧ i.toRecord.dir = i.dir ∧ i.toRecord.rt = i.rt ∧ (encode i).length = 4

theorem SelectsSDCR.mrcA32 (cond rt : BitVec 4) : SelectsSDCR.Statement (.mrcA32 cond rt) :=
  ⟨rfl, rfl, rfl, rfl⟩

theorem SelectsSDCR.mcrA32 (cond rt : BitVec 4) : SelectsSDCR.Statement (.mcrA32 cond rt) :=
  ⟨rfl, rfl, rfl, rfl⟩

theorem SelectsSDCR.mrcT32 (rt : BitVec 4) : SelectsSDCR.Statement (.mrcT32 rt) := ⟨rfl, rfl, rfl, rfl⟩

theorem SelectsSDCR.mcrT32 (rt : BitVec 4) : SelectsSDCR.Statement (.mcrT32 rt) := ⟨rfl, rfl, rfl, rfl⟩

end Sys2Proof.Laws
end

