-- ==== Sys2Proof/Laws/Step.lean ====
section
/-!
SUPPORT. What one step is, by the head of the agenda; what a fetch, a step and a run can do.
-/

namespace Sys2Proof.Machine

open Sys2Proof

theorem step_nil {s : State} (h : s.agenda = []) : step s = runInstr s := by simp [step, h]

theorem step_execute {s : State} {rest} (h : s.agenda = .execute :: rest) :
    step s = runInstr { s with agenda := rest } := by simp [step, h]

theorem step_event {s : State} {e rest} (h : s.agenda = .event e :: rest) :
    step s = .next (State.applyEvent { s with agenda := rest } e) := by simp [step, h]

theorem runInstr_next {s t : State} (h : runInstr s = .next t) : ∃ i, s.fetch = .ok i ∧ exec i s = .next t := by
  unfold runInstr at h
  split at h
  · exact ⟨_, by assumption, h⟩
  · cases h

/-- Everything a step can do when it answers a next state: an event, or an instruction of `exec`. -/
theorem step_next {s t : State} (h : step s = .next t) :
    (∃ e rest, s.agenda = .event e :: rest ∧ t = State.applyEvent { s with agenda := rest } e) ∨
    (∃ i rest, (s.agenda = .execute :: rest ∨ s.agenda = [] ∧ rest = []) ∧ s.fetch = .ok i ∧
      exec i { s with agenda := rest } = .next t) := by
  cases ha : s.agenda with
  | nil =>
    rw [step_nil ha] at h
    obtain ⟨i, hf, hx⟩ := runInstr_next h
    have hs : { s with agenda := [] } = s := by rw [← ha]
    exact .inr ⟨i, [], .inr ⟨rfl, rfl⟩, hf, by rw [hs]; exact hx⟩
  | cons a rest =>
    cases a with
    | execute =>
      rw [step_execute ha] at h
      obtain ⟨i, hf, hx⟩ := runInstr_next h
      exact .inr ⟨i, rest, .inl rfl, hf, hx⟩
    | event e =>
      rw [step_event ha] at h
      exact .inl ⟨e, rest, rfl, by simpa using h.symm⟩

/-! ### Where a fetch and a step stop -/

/-- Four bytes are read, or none. -/
theorem Memory.getBytes_length {m : Memory} {a : Word} {n : Nat} {bs : List Byte}
    (h : Memory.getBytes m a n = some bs) : bs.length = n := by
  induction n generalizing a bs with
  | zero => cases h; rfl
  | succ n ih =>
    unfold Memory.getBytes at h
    split at h
    · cases h
      simp [ih ‹_›]
    · cases h

/-- The decoder on four bytes is the word decoder. -/
theorem decode_of_length_four (set : InstrSet) {bs : List Byte} (h : bs.length = 4) :
    ∃ w, decode set bs = (decodeWord set w).map (·, []) := by
  match bs, h with
  | [b0, b1, b2, b3], _ =>
    refine ⟨wordOfBytes set b0 b1 b2 b3, ?_⟩
    rw [decode]
    cases decodeWord set (wordOfBytes set b0 b1 b2 b3) <;> rfl

/-- Everything a fetch can do: a well-formed instruction, or one of three refusals. -/
theorem State.fetch_cases (s : State) :
    (∃ i, s.fetch = .ok i ∧ i.wf = true) ∨
    (s.fetch = .error .noInstruction ∧ Memory.getBytes s.code s.pc 4 = none) ∨
    s.fetch = .error .notSDCR ∨ s.fetch = .error .rtIs15 := by
  unfold State.fetch
  cases hb : Memory.getBytes s.code s.pc 4 with
  | none => exact .inr (.inl ⟨rfl, rfl⟩)
  | some bs =>
    obtain ⟨w, hw⟩ := decode_of_length_four s.env.instrSet (Memory.getBytes_length hb)
    simp only [hw]
    cases hd : decodeWord s.env.instrSet w with
    | ok i => exact .inl ⟨i, rfl, decodeWord_wf hd⟩
    | error e =>
      rcases decodeWord_error hd with rfl | rfl
      · exact .inr (.inr (.inl rfl))
      · exact .inr (.inr (.inr rfl))

/-- The next step is the execution of an instruction, not an event. -/
abbrev State.Executes (s : State) : Prop := s.agenda = [] ∨ ∃ more, s.agenda = .execute :: more

/-- A step that answers no next state is the execution of an instruction. -/
theorem step_executes {s : State} (h : ∀ t, step s ≠ .next t) :
    ∃ rest, s.Executes ∧ step s = runInstr { s with agenda := rest } := by
  cases ha : s.agenda with
  | nil => exact ⟨[], .inl ha, by rw [step_nil ha, ← ha]⟩
  | cons a rest =>
    cases a with
    | execute => exact ⟨rest, .inr ⟨rest, ha⟩, step_execute ha⟩
    | event e => exact absurd (step_event ha) (h _)

/-- Everything a step that ends in an exception is: a well-formed instruction, fetched, that raises it. -/
theorem step_fault {s : State} {f : Fault} (h : step s = .fault f) :
    s.Executes ∧ ∃ i, s.fetch = .ok i ∧ i.wf = true ∧ accessOutcome i.dir s.cfg s.env = .raised f := by
  obtain ⟨rest, ha, hr⟩ := step_executes (s := s) (by simp [h])
  rw [hr] at h
  unfold runInstr at h
  split at h
  · rename_i i hf
    exact ⟨ha, i, hf, (exec_fault h).1, (exec_fault h).2⟩
  · cases h

/-- Everything a step that is refused is: a fetch that finds no instruction or is refused, or an access from EL1. -/
theorem step_refused {s : State} {r : Refusal} (h : step s = .refused r) :
    s.Executes ∧
    ((r = .noInstruction ∧ Memory.getBytes s.code s.pc 4 = none) ∨
      (r = .notSDCR ∧ s.fetch = .error .notSDCR) ∨
      (r = .rtIs15 ∧ s.fetch = .error .rtIs15) ∨
      (r = .absentEL ∧ s.env.el = .el1 ∧ s.env.conditionPassed = true ∧ ∃ i, s.fetch = .ok i ∧ i.wf = true)) := by
  obtain ⟨rest, ha, hr⟩ := step_executes (s := s) (by simp [h])
  refine ⟨ha, ?_⟩
  rw [hr] at h
  have hs : ({ s with agenda := rest } : State).fetch = s.fetch := rfl
  unfold runInstr at h
  rw [hs] at h
  rcases s.fetch_cases with ⟨i, hf, hw⟩ | ⟨hf, hn⟩ | hf | hf <;> rw [hf] at h
  · rcases exec_refused h with ⟨-, ho⟩ | ⟨hn, -⟩
    · obtain ⟨hr, he, hc⟩ := accessOutcome_refused ho
      exact .inr (.inr (.inr ⟨hr, he, hc, i, hf, hw⟩))
    · rw [hw] at hn
      cases hn
  · cases h
    exact .inl ⟨rfl, hn⟩
  · cases h
    exact .inr (.inl ⟨rfl, hf⟩)
  · cases h
    exact .inr (.inr (.inl ⟨rfl, hf⟩))

/-! ### Runs -/

/-- The fault or refusal of an outcome is the step's own at some state the run reached, and every longer run ends so
too: the one induction over runs that stops. -/
theorem run_stops {k : Nat} {s : State} (h : ∀ t, Host.Core.run Sys2Proof.core k s ≠ .next t) :
    ∃ j < k, ∃ t, Host.Core.run Sys2Proof.core j s = .next t ∧ step t = Host.Core.run Sys2Proof.core k s ∧
      ∀ n, j < n → Host.Core.run Sys2Proof.core n s = Host.Core.run Sys2Proof.core k s := by
  induction k generalizing s with
  | zero => exact absurd rfl (h s)
  | succ k ih =>
    have hrun : ∀ n, Host.Core.run Sys2Proof.core (n + 1) s =
        match step s with
        | .next u => Host.Core.run Sys2Proof.core n u
        | .fault f => .fault f
        | .refused r => .refused r := by
      intro n
      simp only [Host.Core.run, show Sys2Proof.core.step s = step s from rfl]
      cases step s <;> rfl
    cases hs : step s with
    | next u =>
      simp only [hrun, hs] at h ⊢
      obtain ⟨j, hj, t, ht, hst, hn⟩ := ih h
      refine ⟨j + 1, by omega, t, by rw [hrun, hs]; exact ht, hst, fun n hjn => ?_⟩
      obtain ⟨m, rfl⟩ : ∃ m, n = m + 1 := ⟨n - 1, by omega⟩
      rw [hrun, hs]
      exact hn m (by omega)
    | fault f =>
      simp only [hrun, hs]
      refine ⟨0, by omega, s, rfl, hs, fun n hn => ?_⟩
      obtain ⟨m, rfl⟩ : ∃ m, n = m + 1 := ⟨n - 1, by omega⟩
      rw [hrun, hs]
    | refused r =>
      simp only [hrun, hs]
      refine ⟨0, by omega, s, rfl, hs, fun n hn => ?_⟩
      obtain ⟨m, rfl⟩ : ∃ m, n = m + 1 := ⟨n - 1, by omega⟩
      rw [hrun, hs]

end Sys2Proof.Machine
end

