-- ==== Sys2Proof/Tests/Slice0.lean ====
section
/-!
SUPPORT. The model's own tests. Expected values are those of spec/95_test_vectors.md (V and P numbers below), whose words
are written from 30_encoding.md R63 to R65; and one witness for each obligation that has hypotheses.
-/

namespace Sys2Proof.Tests

open Sys2Proof
open Sys2Proof.Machine

/-! ### States to test on -/

/-- The start of 95_test_vectors.md section 2.4: SDCR `0x00100000`, `x[0] = 0xAAAAAAAA`, pc `0x8000`, in a configuration and
under inputs. -/
def start (cfg : Config) (env : Env) : State :=
  { State.reset with
    cfg := cfg, env := env, sdcr := 0x00100000#32, pc := 0x8000#32
    x := State.reset.x.set 0 0xAAAAAAAA#32 }

/-- FULL at EL3, `SCR.NS == 0`, `CP15SDISABLE2` LOW, condition passed. -/
def atEL3 : State := start Config.full Env.reset

/-- The inputs of a PE at EL1 in the row of 95_test_vectors.md section 2.5. -/
def el1Env (en a32 : Bool) (t1 t1' ns eel2 : Bit) : Env :=
  { Env.reset with
    el := .el1, el2Enabled := en, el2AArch32 := a32, hstrEL2T1 := t1, hstrT1 := t1', scrEL3NS := ns, scrEL3EEL2 := eel2 }

/-- FULL with EL3 using AArch64. -/
def full64 : Config := { Config.full with el3AArch32 := false }

/-- The inputs at EL1 of V72: arm 5. -/
def v72 : Env := el1Env true true 1 0 1 0

/-- `withFetchWord` of a word on a state, its execution first on the agenda. -/
def onWord (s : State) (w : Nat) : State := s.withFetchWord 32 w

/-! ### Well-formedness: each check refuses an ill-formed term -/

theorem test_wf_refuses_cond_fifteen :
    Instr.wf (.mrcA32 15#4 0#4) = false ∧ Instr.wf (.mcrA32 15#4 0#4) = false := by decide

theorem test_wf_refuses_rt_fifteen :
    Instr.wf (.mrcA32 14#4 15#4) = false ∧ Instr.wf (.mcrA32 14#4 15#4) = false ∧
    Instr.wf (.mrcT32 15#4) = false ∧ Instr.wf (.mcrT32 15#4) = false := by decide

theorem test_wf_admits_the_ends :
    Instr.wf (.mrcA32 0#4 14#4) = true ∧ Instr.wf (.mcrA32 14#4 0#4) = true ∧
    Instr.wf (.mrcT32 14#4) = true ∧ Instr.wf (.mcrT32 13#4) = true := by decide

/-- A stored bit that holds a field is no configuration (00_scope.md R5). -/
theorem test_config_wf_refuses_a_field_bit :
    Config.wf { Config.full with res0StoreMask := 0x00100000#32 } = false ∧
    Config.wf { Config.full with res0StoreMask := 0xFF000000#32 } = true := by decide

/-! ### Decoding: words written out (V1 to V22), bytes, encoding -/

theorem test_decode_mrcA32 :
    decodeWord .a32 0b1110_1110_0001_0001_0000_1111_0011_0011#32 = .ok (.mrcA32 14#4 0#4) ∧
    decodeWord .a32 0b1110_1110_0001_0001_0001_1111_0011_0011#32 = .ok (.mrcA32 14#4 1#4) ∧
    decodeWord .a32 0b0000_1110_0001_0001_0000_1111_0011_0011#32 = .ok (.mrcA32 0#4 0#4) ∧
    decodeWord .a32 0b1110_1110_0001_0001_1110_1111_0011_0011#32 = .ok (.mrcA32 14#4 14#4) := by decide

theorem test_decode_mcrA32 :
    decodeWord .a32 0b1110_1110_0000_0001_0000_1111_0011_0011#32 = .ok (.mcrA32 14#4 0#4) ∧
    decodeWord .a32 0b1110_1110_0000_0001_0010_1111_0011_0011#32 = .ok (.mcrA32 14#4 2#4) ∧
    decodeWord .a32 0b0001_1110_0000_0001_0011_1111_0011_0011#32 = .ok (.mcrA32 1#4 3#4) ∧
    decodeWord .a32 0b1110_1110_0000_0001_1101_1111_0011_0011#32 = .ok (.mcrA32 14#4 13#4) := by decide

theorem test_decode_mrcT32 :
    decodeWord .t32 0b1110_1110_0001_0001_0000_1111_0011_0011#32 = .ok (.mrcT32 0#4) := by decide

theorem test_decode_mcrT32 :
    decodeWord .t32 0b1110_1110_0000_0001_0101_1111_0011_0011#32 = .ok (.mcrT32 5#4) := by decide

/-- V9, V22; V10 and, with both, `cond` before `Rt`. -/
theorem test_decode_refuses_by_name :
    decodeWord .a32 0xEE11FF33#32 = .error .rtIs15 ∧ decodeWord .t32 0xEE11FF33#32 = .error .rtIs15 ∧
    decodeWord .a32 0xFE110F33#32 = .error .notSDCR ∧ decodeWord .a32 0xFE11FF33#32 = .error .notSDCR := by decide

/-- V11 to V18 and V21. -/
theorem test_decode_refuses_neighbours :
    [0xEE110F32#32, 0xEE110F31#32, 0xEE110F13#32, 0xEE110F53#32, 0xEE100F33#32, 0xEE310F33#32, 0xEE110E33#32,
      0xEE110F23#32].all (fun w => decide (decodeWord .a32 w = .error .notSDCR)) = true ∧
    decodeWord .t32 0x0E110F33#32 = .error .notSDCR := by decide

/-- 20_memory.md R53: `33 0F 11 EE` in A32, halfwords in T32; three bytes are no instruction. -/
theorem test_decode_bytes :
    decode .a32 [0x33#8, 0x0F#8, 0x11#8, 0xEE#8, 0x99#8] = .ok (.mrcA32 14#4 0#4, [0x99#8]) ∧
    decode .t32 [0x11#8, 0xEE#8, 0x33#8, 0x0F#8] = .ok (.mrcT32 0#4, []) ∧
    decode .a32 [0x33#8, 0x0F#8, 0x11#8] = .error .truncated := by decide

theorem test_encode_words :
    encodeWord (.mrcA32 14#4 1#4) = 0xEE111F33#32 ∧ encodeWord (.mcrA32 1#4 3#4) = 0x1E013F33#32 ∧
    encodeWord (.mrcT32 2#4) = 0xEE112F33#32 ∧ encodeWord (.mcrT32 5#4) = 0xEE015F33#32 ∧
    encode (.mrcA32 14#4 0#4) = [0x33#8, 0x0F#8, 0x11#8, 0xEE#8] ∧
    encode (.mrcT32 0#4) = [0x11#8, 0xEE#8, 0x33#8, 0x0F#8] := by decide

/-- The four rows of opcode_table.json by their `match`, an A32 row with an A32 condition. -/
theorem test_decode_table_words :
    decodeTableWord 32 0x0E110F33 = some (.mrcA32 0#4 0#4) ∧ decodeTableWord 32 0x0E010F33 = some (.mcrA32 0#4 0#4) ∧
    decodeTableWord 32 0xEE110F33 = some (.mrcT32 0#4) ∧ decodeTableWord 32 0xEE010F33 = some (.mcrT32 0#4) ∧
    decodeTableWord 32 0xFE110F33 = none := by decide

/-- The record of 95_test_vectors.md section 2.1, and one with another `CRm`. -/
theorem test_record :
    nextOf (execRecord ⟨.read, 14#4, 15#4, 0#3, 0#4, 1#4, 3#4, 1#3⟩ atEL3) = nextOf (exec (.mrcA32 14#4 0#4) atEL3) ∧
    refusalOf (execRecord ⟨.read, 14#4, 15#4, 0#3, 0#4, 1#4, 1#4, 1#3⟩ atEL3) = some .notSDCR := by decide

/-- 30_encoding.md R60, R68: `MRCNE.W p15, #0, r3, c1, c3, #1`. -/
theorem test_assembler_line :
    AsmLine.instr .a32 ⟨.read, some 1#4, some .w, [.coproc 15#4, .imm true 0#3, .gpr 3#4, .creg 1#4, .creg 3#4, .imm true 1#3]⟩
      = some (.ok (.mrcA32 1#4 3#4)) ∧
    AsmLine.instr .t32 ⟨.write, none, none, [.coproc 15#4, .imm false 0#3, .gpr 5#4, .creg 1#4, .creg 3#4]⟩
      = some (.error .notSDCR) ∧
    AsmLine.instr .a32 ⟨.read, none, none, [.gpr 3#4]⟩ = none := by decide

/-! ### Instructions: at most two theorems each -/

/-- V52, V50, V53: EL3 whatever the signal; EL0; EL0 with the condition failed. -/
theorem test_mrcA32_outcomes :
    (nextOf (exec (.mrcA32 14#4 0#4) (start Config.full { Env.reset with cp15sdisable2 := .high }))).map
      (fun t => (t.getReg 0, t.sdcr, t.pc)) = some (0x00100000#32, 0x00100000#32, 0x8004#32) ∧
    faultOf (exec (.mrcA32 14#4 0#4) (start Config.full { Env.reset with el := .el0 })) = some .undefined ∧
    (nextOf (exec (.mrcA32 14#4 0#4) (start Config.full { Env.reset with el := .el0, conditionPassed := false }))).map
      (fun t => (t.getReg 0, t.sdcr, t.pc)) = some (0xAAAAAAAA#32, 0x00100000#32, 0x8004#32) := by decide

/-- V43, V44: the read-back of the reserved SPD value where the configuration fixes one. -/
theorem test_mrcA32_reserved_spd :
    (nextOf (exec (.mrcA32 14#4 0#4)
        { atEL3 with sdcr := 0x00344000#32, cfg := { Config.full with spdReservedReadback := some 0#2 } })).map
      (State.getReg · 0) = some 0x00340000#32 ∧
    (nextOf (exec (.mrcA32 14#4 0#4)
        { atEL3 with sdcr := 0x00344000#32, cfg := { Config.full with spdReservedReadback := some 1#2 } })).map
      (State.getReg · 0) = some 0x00344000#32 := by decide

/-- V56 to V60. -/
theorem test_mcrA32_outcomes :
    (nextOf (exec (.mcrA32 14#4 0#4) atEL3)).map (fun t => (t.getReg 0, t.sdcr, t.pc))
      = some (0xAAAAAAAA#32, 0x00AA8000#32, 0x8004#32) ∧
    faultOf (exec (.mcrA32 14#4 0#4) (start Config.full { Env.reset with cp15sdisable2 := .high })) = some .undefined ∧
    (nextOf (exec (.mcrA32 14#4 0#4) (start Config.full { Env.reset with cp15sdisable2 := .high, scrNS := 1#1 }))).map
      State.sdcr = some 0x00AA8000#32 ∧
    (nextOf (exec (.mcrA32 14#4 0#4)
        (start Config.full { Env.reset with cp15sdisable2 := .high, conditionPassed := false }))).map
      (fun t => (t.sdcr, t.pc)) = some (0x00100000#32, 0x8004#32) := by decide

/-- The rows V30, V32 and V34 of the write function in FULL, MIN and PMU, and stored RES0 bits. -/
theorem test_mcrA32_write_function :
    [Config.full, Config.min, Config.pmu].map
        (fun c => [0xFFFFFFFF#32, 0x12345678#32, 0x00A28000#32, 0xFF413FFF#32].map (writeValue c)) =
      [[0x00BEC000#32, 0x00344000#32, 0x00A28000#32, 0#32], [0x0010C000#32, 0x00104000#32, 0x00008000#32, 0#32],
        [0x0032C000#32, 0x00304000#32, 0x00228000#32, 0#32]] ∧
    (nextOf (exec (.mcrA32 14#4 1#4)
        { atEL3 with
          x := atEL3.x.set 1 0xFFFFFFFF#32, cfg := { Config.full with res0StoreMask := 0xFF000000#32 } })).map
      State.sdcr = some 0xFFBEC000#32 := by decide

/-- V51, and a source register that is not the first. -/
theorem test_mrcT32_outcomes :
    faultOf (exec (.mrcT32 0#4) (start Config.full { Env.reset with el := .el2 })) = some .undefined ∧
    (nextOf (exec (.mrcT32 14#4) atEL3)).map (fun t => (t.getReg 14, t.getReg 0, t.pc))
      = some (0x00100000#32, 0xAAAAAAAA#32, 0x8004#32) := by decide

/-- A write replaces and does not merge (95_test_vectors.md section 2.2), and V61: the pc wraps. -/
theorem test_mcrT32_replaces_and_wraps :
    (nextOf (exec (.mcrT32 5#4)
        { atEL3 with sdcr := 0x00BEC000#32, pc := 0xFFFFFFFC#32, x := atEL3.x.set 5 0x00008000#32 })).map
      (fun t => (t.sdcr, t.pc)) = some (0x00008000#32, 0#32) := by decide

/-- `Rt` = 15 is refused before the condition is read. -/
theorem test_rt_fifteen :
    refusalOf (exec (.mrcT32 15#4) { atEL3 with env := { Env.reset with conditionPassed := false } }) = some .rtIs15 ∧
    refusalOf (exec (.mcrA32 14#4 15#4) atEL3) = some .rtIs15 ∧
    refusalOf (exec (.mcrA32 15#4 15#4) atEL3) = some .notSDCR := by decide

/-! ### The check at EL1 (V70 to V80) -/

theorem test_el1_vectors :
    el1Outcome Config.full (el1Env true false 1 0 0 0) = .raised (.systemAccessTrap .el2 0x03) ∧
    el1Outcome Config.full (el1Env true true 0 1 0 0) = .raised (.hypTrap 0x03) ∧
    el1Outcome Config.full v72 = .raised .undefined ∧
    el1Outcome Config.full (el1Env false false 1 1 0 1) = .raised (.systemAccessTrap .el2 0x03) ∧
    el1Outcome full64 (el1Env true false 0 1 0 1) = .raised (.systemAccessTrap .el2 0x03) ∧
    el1Outcome full64 (el1Env false false 1 1 0 0) = .raised (.systemAccessTrap .el3 0x03) ∧
    el1Outcome full64 (el1Env false true 1 1 0 1) = .raised (.systemAccessTrap .el3 0x03) ∧
    el1Outcome full64 (el1Env false false 1 1 1 1) = .raised .undefined ∧
    el1Outcome Config.full (el1Env false true 1 1 0 1) = .raised .undefined ∧
    el1Outcome full64 (el1Env true false 0 1 1 1) = .raised .undefined ∧
    el1Outcome full64 (el1Env true false 1 0 0 0) = .raised (.systemAccessTrap .el2 0x03) := by decide

/-- 92_eei_decisions.md D8 (log 12): refused where an absent EL2 would decide, not where it would not. -/
theorem test_el1_absent_EL2 :
    el1Outcome { Config.full with haveEL2 := false } (el1Env false false 0 0 0 1) = .refused .absentEL ∧
    el1Outcome { full64 with haveEL2 := false } (el1Env false false 1 1 0 0) = .raised (.systemAccessTrap .el3 0x03) ∧
    el1Outcome { Config.full with haveEL3 := false } (el1Env true true 0 1 0 0) = .raised (.hypTrap 0x03) := by decide

/-- The 128 combinations of 95_test_vectors.md section 2.5. -/
def el1Combinations : List AccessOutcome :=
  let bools := [false, true]
  let bits : List Bit := [0#1, 1#1]
  bools.flatMap fun en => bools.flatMap fun a32 => bits.flatMap fun t1 => bits.flatMap fun t1' =>
    bits.flatMap fun ns => bits.flatMap fun eel2 => [Config.full, full64].map fun c =>
      el1Outcome c (el1Env en a32 t1 t1' ns eel2)

/-- The exhaustive count: arms 1 and 3 share an outcome (16 + 12). -/
theorem test_el1_count :
    el1Combinations.length = 128 ∧
    (el1Combinations.filter (· == .raised (.systemAccessTrap .el2 0x03))).length = 28 ∧
    (el1Combinations.filter (· == .raised (.hypTrap 0x03))).length = 16 ∧
    (el1Combinations.filter (· == .raised (.systemAccessTrap .el3 0x03))).length = 18 ∧
    (el1Combinations.filter (· == .raised .undefined)).length = 66 := by decide +kernel

/-! ### Masks, reset, control outputs -/

theorem test_masks :
    [Config.full, Config.min, Config.pmu, Config.pmuNoExt, Config.trace, Config.v82].map wmask =
      [0x00BEC000#32, 0x0010C000#32, 0x0032C000#32, 0x0012C000#32, 0x001CC000#32, 0x0032C000#32] := by decide

/-- 10_state.md R21: the seven fields and the four reserved rows cover the 32 bits. -/
theorem test_bit_assignment :
    ([Field.sccd, .epmad, .edad, .ttrf, .ste, .spme, .spd].map (fun f => (f.lo, f.width)) ++ reservedRows) =
      [(23, 1), (21, 1), (20, 1), (19, 1), (18, 1), (17, 1), (14, 2), (24, 8), (22, 1), (16, 1), (0, 14)] := by decide

/-- V90, V91: a reset into EL3 using AArch32; 70_reset_and_hazards.md R142: from EL1 the PE is at EL3 after it. -/
theorem test_reset :
    (nextOf (step { start Config.full v72 with agenda := [.event .reset] })).map (fun t => (t.env.el, t.pc))
      = some (.el3, 0x8000#32) ∧
    (nextOf (step { atEL3 with sdcr := 0x00BEC000#32, agenda := [.event .reset] })).map (fun t => (t.sdcr, t.pc, t.agenda))
      = some (0#32, 0x8000#32, []) ∧
    (nextOf (step { start Config.min Env.reset with sdcr := 0x0010C000#32, agenda := [.event .reset] })).map State.sdcr
      = some 0#32 := by decide

/-- V100 to V103. -/
theorem test_sccd :
    pmccntrProhibitedBySCCD Config.full Env.reset 0x00800000#32 = true ∧
    pmccntrProhibitedBySCCD Config.full { Env.reset with isSecure := false } 0x00800000#32 = false ∧
    pmccntrProhibitedBySCCD Config.full Env.reset 0#32 = false ∧
    pmccntrProhibitedBySCCD Config.pmu Env.reset 0x0032C000#32 = false := by decide

/-- V110 to V116. -/
theorem test_epmad :
    extPMUAccessPermittedBySDCR Config.full Env.reset 0x00200000#32 true = false ∧
    extPMUAccessPermittedBySDCR Config.full Env.reset 0x00200000#32 false = true ∧
    extPMUAccessPermittedBySDCR Config.full Env.reset 0#32 true = true ∧
    extPMUAccessPermittedBySDCR Config.pmu Env.reset 0x00200000#32 false = false ∧
    extPMUAccessPermittedBySDCR Config.pmu { Env.reset with authOverrideEPMAD := true } 0x00200000#32 true = true ∧
    extPMUAccessPermittedBySDCR Config.pmuNoExt Env.reset 0x00200000#32 true = true ∧
    extPMUAccessPermittedBySDCR Config.min Env.reset 0x00200000#32 true = true := by decide

/-- V120 to V130. -/
theorem test_edad :
    extDebugAccessPermittedBySDCR Config.full Env.reset 0x00100000#32 .breakpoint true = false ∧
    extDebugAccessPermittedBySDCR Config.full Env.reset 0x00100000#32 .oslar true = false ∧
    extDebugAccessPermittedBySDCR Config.full Env.reset 0x00100000#32 .watchpoint false = true ∧
    extDebugAccessPermittedBySDCR Config.full Env.reset 0x00100000#32 .otherDebug true = true ∧
    extDebugAccessPermittedBySDCR Config.v82 Env.reset 0x00100000#32 .oslar false = false ∧
    extDebugAccessPermittedBySDCR Config.v82 { Env.reset with authOverrideEDAD := true } 0x00100000#32 .watchpoint true = true ∧
    extDebugAccessPermittedBySDCR Config.min Env.reset 0x00100000#32 .breakpoint false = false ∧
    extDebugAccessPermittedBySDCR Config.min Env.reset 0x00100000#32 .oslar false = true ∧
    extDebugAccessPermittedBySDCR { Config.min with edadCoversOSLAR := true } Env.reset 0x00100000#32 .oslar false = false ∧
    extDebugAccessPermittedBySDCR { Config.min with edadCoversOSLAR := true } { Env.reset with authOverrideEDAD := true }
      0x00100000#32 .oslar false = true ∧
    extDebugAccessPermittedBySDCR Config.full Env.reset 0xFFEFFFFF#32 .breakpoint true = true := by decide

/-- V140 to V143. -/
theorem test_ttrf :
    traceFilterAccessTrappedBySDCR Config.full Env.reset 0x00080000#32 = true ∧
    traceFilterAccessTrappedBySDCR Config.full { Env.reset with inMonitorMode := true } 0x00080000#32 = false ∧
    traceFilterAccessTrappedBySDCR Config.full Env.reset 0#32 = false ∧
    traceFilterAccessTrappedBySDCR Config.min Env.reset 0x00080000#32 = false := by decide

/-- V150 to V155. -/
theorem test_ste :
    secureTraceProhibitedBySDCR Config.full Env.reset 0#32 = .ok true ∧
    secureTraceProhibitedBySDCR Config.full { Env.reset with authOverrideSTE := true } 0#32 = .ok false ∧
    secureTraceProhibitedBySDCR Config.full Env.reset 0x00040000#32 = .ok false ∧
    secureTraceProhibitedBySDCR Config.full { Env.reset with isSecure := false } 0#32 = .ok false ∧
    secureTraceProhibitedBySDCR { Config.full with haveEL3 := false } Env.reset 0#32 = .ok false ∧
    secureTraceProhibitedBySDCR Config.min Env.reset 0#32 = .error .controlNotDefined := by decide

/-- V160 to V166. -/
theorem test_spme :
    secureEventCountingProhibitedBySDCR Config.full { Env.reset with extSecureNoninvasiveDebugEnabled := true } 0#32
      = .ok true ∧
    secureEventCountingProhibitedBySDCR Config.full Env.reset 0x00020000#32 = .ok false ∧
    secureEventCountingProhibitedBySDCR Config.full { Env.reset with isSecure := false } 0#32 = .ok false ∧
    secureEventCountingProhibitedBySDCR Config.pmu Env.reset 0#32 = .ok true ∧
    secureEventCountingProhibitedBySDCR Config.pmu { Env.reset with extSecureNoninvasiveDebugEnabled := true } 0#32
      = .ok false ∧
    secureEventCountingProhibitedBySDCR { Config.pmu with haveEL3 := false } Env.reset 0#32 = .ok false ∧
    secureEventCountingProhibitedBySDCR Config.min Env.reset 0#32 = .error .controlNotDefined := by decide

/-- V170 to V177: the pair (P, E0). -/
theorem test_spd :
    let out (auth : Bool) (suiden : Bit) (w : Word) :=
      let env := { Env.reset with authSecurePrivDebug := auth, suiden := suiden }
      (securePrivDebugExceptionsEnabledBySDCR env w, secureEL0DebugExceptionsEnabledBySDCR env w)
    out false 0 0#32 = (false, false) ∧ out true 0 0#32 = (true, true) ∧ out false 1 0#32 = (false, true) ∧
    out true 0 0x4000#32 = (true, true) ∧ out false 0 0x4000#32 = (false, false) ∧
    out true 0 0x8000#32 = (false, false) ∧ out true 1 0x8000#32 = (false, true) ∧
    out false 0 0xC000#32 = (true, true) := by decide

/-! ### Fetch -/

/-- P1's first word, read after reset, and the same row by its table word; and the one step from reset with nothing
supplied. -/
theorem test_fetch_from_reset :
    (nextOf (step (onWord State.reset 0xEE110F33))).map (fun t => (t.getReg 0, t.pc, t.agenda)) = some (0#32, 4#32, []) ∧
    (nextOf (step (onWord State.reset 0x0E010F33))).map (fun t => (t.sdcr, t.pc)) = some (0#32, 4#32) ∧
    refusalOf (step State.reset) = some .noInstruction := by decide

/-- An instruction at `0xFFFFFFFE` wraps; a byte loaded twice is listed once. -/
theorem test_instruction_bytes :
    Memory.getBytes (Memory.setBytes [] 0xFFFFFFFE#32 [1#8, 2#8, 3#8, 4#8]) 0xFFFFFFFE#32 4
      = some [1#8, 2#8, 3#8, 4#8] ∧
    Memory.setBytes [] 0xFFFFFFFE#32 [1#8, 2#8, 3#8, 4#8]
      = [(0, 3#8), (1, 4#8), (0xFFFFFFFE, 1#8), (0xFFFFFFFF, 2#8)] ∧
    Memory.set (Memory.set [] 5 1#8) 5 2#8 = [(5, 2#8)] := by decide

/-! ### Witnesses: a state and operands that meet all hypotheses of an obligation together -/

/-- The PE at EL3 with a reset, or another event, first on the agenda. -/
def withEvent (s : State) (e : Event) : State := { s with agenda := [.event e] }

/-- Configuration with stored RES0 bits, no EL3. -/
def noEL3 : Config := { Config.full with haveEL3 := false, res0StoreMask := 0xFF000000#32 }

/-- EL0, an instruction supplied at the pc. -/
def atEL0 : State := { onWord atEL3 0xEE010F33 with env := { Env.reset with el := .el0, conditionPassed := false, instrSet := .t32 } }

theorem witness_ResetStepReplacesSDCROnly :
    (withEvent atEL3 .reset).agenda = .event .reset :: [] ∧ Config.full.haveEL3 = true ∧ Config.full.el3AArch32 = true ∧
    Config.full.res0StoreMask = 0#32 ∧ (withEvent (start noEL3 Env.reset) .reset).agenda = .event .reset :: [] ∧
    noEL3.haveEL3 = false ∧ noEL3.haveEL2 = true ∧ ({ noEL3 with haveEL2 := false } : Config).haveEL2 = false := by
  decide

theorem witness_EveryStepKeepsTheInvariant :
    (onWord atEL3 0xEE010F33).Inv ∧ ∃ t, step (onWord atEL3 0xEE010F33) = .next t := ⟨by decide, _, rfl⟩

theorem witness_InvariantAndConfigurationHoldAlongRuns :
    let s : State := { onWord atEL3 0xEE010F33 with agenda := [.execute, .event .contextSync, .event .reset] }
    s.Inv ∧ ∃ t, Host.Core.run Sys2Proof.core 3 s = .next t := ⟨by decide, _, rfl⟩

theorem witness_StepRunsTheDecodedInstruction :
    let s := onWord atEL3 0xEE010F33
    Memory.getBytes s.code s.pc 4 = some [0x01#8, 0xEE#8, 0x33#8, 0x0F#8] ∧
    decode s.env.instrSet [0x01#8, 0xEE#8, 0x33#8, 0x0F#8] = .ok (.mcrT32 0#4, []) ∧ s.agenda = .execute :: [] ∧
    ({ s with agenda := [] } : State).agenda = [] := by decide

/-- Each clause with an empty agenda and with an execution first. -/
theorem witness_StepRefusesWhatDoesNotDecode :
    let rt := onWord atEL3 0xEE11FF33
    let other := onWord atEL3 0xEE110F32
    State.reset.agenda = [] ∧ Memory.getBytes State.reset.code State.reset.pc 4 = none ∧
    ({ State.reset with agenda := [.execute] } : State).agenda = .execute :: [] ∧
    rt.agenda = .execute :: [] ∧ ({ rt with agenda := [] } : State).agenda = [] ∧
    Memory.getBytes rt.code rt.pc 4 = some [0x11#8, 0xEE#8, 0x33#8, 0xFF#8] ∧
    decode rt.env.instrSet [0x11#8, 0xEE#8, 0x33#8, 0xFF#8] = .error .rtIs15 ∧
    other.agenda = .execute :: [] ∧ ({ other with agenda := [] } : State).agenda = [] ∧
    Memory.getBytes other.code other.pc 4 = some [0x11#8, 0xEE#8, 0x32#8, 0x0F#8] ∧
    decode other.env.instrSet [0x11#8, 0xEE#8, 0x32#8, 0x0F#8] = .error .notSDCR := by decide

theorem witness_WithFetchWordRunsTheTableWord : decodeTableWord 32 0xEE01EF33 = some (.mcrT32 14#4) := by decide

theorem witness_DecodeOfEncodeIsTheInstruction :
    Instr.wf (.mrcA32 0#4 14#4) = true ∧ Instr.wf (.mcrA32 14#4 0#4) = true ∧ Instr.wf (.mrcT32 0#4) = true ∧
    Instr.wf (.mcrT32 14#4) = true := by decide

theorem witness_EncodeOfDecodeIsTheBytes :
    decode .t32 [0x01#8, 0xEE#8, 0x33#8, 0xEF#8, 7#8] = .ok (.mcrT32 14#4, [7#8]) := by decide

/-- A record with a condition that no A32 word has, one with `Rt` = 15, and one of another register. -/
theorem witness_RecordThatSelectsSDCRIsTheInstruction :
    (⟨.write, 15#4, 15#4, 0#3, 14#4, 1#4, 3#4, 1#3⟩ : SysRegAccess).selectsSDCR = true ∧
    Instr.wf (.mcrT32 14#4) = true ∧ (14#4 : BitVec 4) = Instr.rt (.mcrT32 14#4) ∧ Instr.dir (.mcrT32 14#4) = .write ∧
    (⟨.read, 14#4, 15#4, 0#3, 15#4, 1#4, 3#4, 1#3⟩ : SysRegAccess).selectsSDCR = true ∧
    (⟨.write, 14#4, 15#4, 0#3, 14#4, 1#4, 3#4, 2#3⟩ : SysRegAccess).selectsSDCR = false := by decide

theorem witness_AssemblerLineIsTheInstruction :
    Instr.wf (.mrcA32 0#4 14#4) = true ∧ Instr.instrSet (.mrcA32 0#4 14#4) = .a32 ∧ Instr.wf (.mcrT32 0#4) = true ∧
    Instr.instrSet (.mcrT32 0#4) = .t32 ∧ (0b1110#4 : BitVec 4) ≠ 0b1111#4 := by decide

/-- The state of V43, its read-back fixed at `0b01`. -/
def reservedFixed : State :=
  { atEL3 with sdcr := 0x00344000#32, cfg := { Config.full with spdReservedReadback := some 0#2 } }

/-- Both SPD cases, the lowest and the highest register, both sets. -/
theorem witness_MrcAtEL3ReadsSDCRIntoRt :
    (14#4 : BitVec 4) ≠ 0b1111#4 ∧ (14#4 : BitVec 4).toNat = (14 : Fin 15).val ∧ (0#4 : BitVec 4).toNat = (0 : Fin 15).val ∧
    atEL3.env.conditionPassed = true ∧ atEL3.env.el = .el3 ∧ atEL3.sdcr.extractLsb' 14 2 ≠ 0b01#2 ∧
    reservedFixed.env.el = .el3 ∧ reservedFixed.sdcr.extractLsb' 14 2 = 0b01#2 ∧
    reservedFixed.cfg.spdReservedReadback = some 0#2 := by decide

/-- LOW with `SCR.NS` 0, HIGH with `SCR.NS` 1. -/
theorem witness_McrAtEL3WritesRtIntoSDCR :
    (0#4 : BitVec 4) ≠ 0b1111#4 ∧ (14#4 : BitVec 4).toNat = (14 : Fin 15).val ∧ atEL3.env.conditionPassed = true ∧
    atEL3.env.el = .el3 ∧ ¬ (atEL3.env.scrNS = 0#1 ∧ atEL3.env.cp15sdisable2 = .high) ∧
    ¬ ((1#1 : Bit) = 0#1 ∧ Level.high = .high) := by decide

theorem witness_FailedConditionOnlyAdvancesPc :
    (14#4 : BitVec 4) ≠ 0b1111#4 ∧ (14#4 : BitVec 4) ≠ 15#4 ∧ atEL0.env.conditionPassed = false := by decide

theorem witness_WriteReplacesEveryFieldAtOnce :
    Instr.wf (.mcrT32 14#4) = true ∧ Instr.dir (.mcrT32 14#4) = .write ∧ (Instr.rt (.mcrT32 14#4)).toNat = (14 : Fin 15).val ∧
    atEL3.env.conditionPassed = true ∧ atEL3.env.el = .el3 ∧ ¬ WriteBlocked atEL3.env ∧
    (wmask atEL3.cfg).getLsbD 23 = true ∧ (withEvent atEL3 .reset).agenda = .event .reset :: [] := by decide

/-- One register read twice, and two; SPD reserved and not. -/
theorem witness_TwoReadsReturnTheStoredValue :
    Instr.wf (.mrcA32 14#4 0#4) = true ∧ Instr.wf (.mrcT32 14#4) = true ∧ Instr.dir (.mrcA32 14#4 0#4) = .read ∧
    Instr.dir (.mrcT32 14#4) = .read ∧ (Instr.rt (.mrcA32 14#4 0#4)).toNat = (0 : Fin 15).val ∧
    (Instr.rt (.mrcT32 14#4)).toNat = (14 : Fin 15).val ∧ atEL3.env.conditionPassed = true ∧ atEL3.env.el = .el3 ∧
    atEL3.sdcr.extractLsb' 14 2 ≠ 0b01#2 ∧ reservedFixed.env.conditionPassed = true ∧ reservedFixed.env.el = .el3 ∧
    reservedFixed.sdcr.extractLsb' 14 2 = 0b01#2 ∧ reservedFixed.cfg.spdReservedReadback = some 0#2 := by decide

theorem witness_ExecFrame :
    (∃ t, exec (.mrcT32 14#4) atEL3 = .next t) ∧ (∃ t, exec (.mcrA32 14#4 0#4) atEL3 = .next t) :=
  ⟨⟨_, rfl⟩, ⟨_, rfl⟩⟩

/-- At `0xFFFFFFFC`. -/
theorem witness_PcAdvancesByFourModulo :
    ∃ t, exec (.mrcT32 14#4) { atEL3 with pc := 0xFFFFFFFC#32 } = .next t := ⟨_, rfl⟩

/-- A value with SPD valid, one with SPD reserved and a read-back. -/
theorem witness_ReadAfterWriteReturnsTheWrite :
    Instr.wf (.mcrA32 14#4 0#4) = true ∧ Instr.dir (.mcrA32 14#4 0#4) = .write ∧
    (Instr.rt (.mcrA32 14#4 0#4)).toNat = (0 : Fin 15).val ∧ Instr.wf (.mrcT32 0#4) = true ∧
    Instr.dir (.mrcT32 0#4) = .read ∧ (Instr.rt (.mrcT32 0#4)).toNat = (0 : Fin 15).val ∧
    reservedFixed.env.conditionPassed = true ∧ reservedFixed.env.el = .el3 ∧ ¬ WriteBlocked reservedFixed.env ∧
    ({ Env.reset with cp15sdisable2 := .high } : Env).conditionPassed = true ∧
    ({ Env.reset with cp15sdisable2 := .high } : Env).el = .el3 ∧
    (reservedFixed.getReg 0).extractLsb' 14 2 ≠ 0b01#2 ∧
    ((reservedFixed.setReg 0 0x4000#32).getReg 0).extractLsb' 14 2 = 0b01#2 ∧
    (reservedFixed.setReg 0 0x4000#32).cfg.spdReservedReadback = some 0#2 := by decide

theorem witness_WritingBackTheReadValueKeepsSDCR :
    atEL3.Inv ∧ Instr.wf (.mrcA32 14#4 0#4) = true ∧ Instr.wf (.mcrA32 14#4 0#4) = true ∧
    Instr.dir (.mrcA32 14#4 0#4) = .read ∧ Instr.dir (.mcrA32 14#4 0#4) = .write ∧
    (Instr.rt (.mcrA32 14#4 0#4)).toNat = (0 : Fin 15).val ∧ atEL3.env.conditionPassed = true ∧ atEL3.env.el = .el3 ∧
    ¬ WriteBlocked atEL3.env ∧ atEL3.sdcr.extractLsb' 14 2 ≠ 0b01#2 := by decide

/-- EL0, EL2, a blocked write, and arm 5 at EL1 with both levels implemented. -/
theorem witness_UndefinedExactlyWhereTheSourceSaysSo :
    Instr.wf (.mcrA32 14#4 0#4) = true ∧ ({ Env.reset with el := .el0 } : Env).conditionPassed = true ∧
    ({ Env.reset with el := .el0 } : Env).el = .el0 ∧ ({ Env.reset with el := .el2 } : Env).el = .el2 ∧
    WriteBlocked { Env.reset with cp15sdisable2 := .high } ∧ Instr.dir (.mcrA32 14#4 0#4) = .write ∧
    Config.full.haveEL2 = true ∧ Config.full.haveEL3 = true ∧ v72.el = .el1 ∧ v72.conditionPassed = true ∧ ¬ Arm1 v72 ∧
    ¬ Arm2 v72 ∧ ¬ Arm3 v72 ∧ ¬ Arm4 Config.full v72 ∧
    faultOf (exec (.mcrA32 14#4 0#4) (start Config.full v72)) = some .undefined := by decide

/-- Arms 1, 2, 3 and 4, each raised. -/
theorem witness_EachTrapExactlyOnItsArms :
    let run (e : Env) := faultOf (exec (.mrcT32 14#4) (start full64 e))
    Instr.wf (.mrcT32 14#4) = true ∧ full64.haveEL2 = true ∧ full64.haveEL3 = true ∧
    (el1Env true false 1 0 0 0).el = .el1 ∧ (el1Env true false 1 0 0 0).conditionPassed = true ∧
    Arm1 (el1Env true false 1 0 0 0) ∧ run (el1Env true false 1 0 0 0) = some (.systemAccessTrap .el2 0x03) ∧
    Arm2 (el1Env true true 0 1 0 0) ∧ run (el1Env true true 0 1 0 0) = some (.hypTrap 0x03) ∧
    (¬ Arm2 (el1Env false false 1 1 0 1) ∧ Arm3 (el1Env false false 1 1 0 1)) ∧
    run (el1Env false false 1 1 0 1) = some (.systemAccessTrap .el2 0x03) ∧
    (¬ Arm1 (el1Env false true 0 0 0 1) ∧ ¬ Arm2 (el1Env false true 0 0 0 1) ∧ ¬ Arm3 (el1Env false true 0 0 0 1) ∧
      Arm4 full64 (el1Env false true 0 0 0 1)) ∧
    run (el1Env false true 0 0 0 1) = some (.systemAccessTrap .el3 0x03) := by decide

/-- Each row of the table, and the refusal where EL2 is absent. -/
theorem witness_OutcomeAtEL1IsTheDecisionTable :
    Instr.wf (.mrcT32 14#4) = true ∧ (el1Env false false 0 0 0 1).conditionPassed = true ∧
    (el1Env false false 0 0 0 1).el = .el1 ∧
    refusalOf (exec (.mrcT32 14#4) (start { Config.full with haveEL2 := false } (el1Env false false 0 0 0 1)))
      = some .absentEL ∧
    faultOf (exec (.mrcT32 14#4) (start full64 (el1Env false false 0 0 0 1))) = some (.systemAccessTrap .el2 0x03) := by
  decide

/-- An outcome settled without the absent level, and one that is not. -/
theorem witness_AbsentLevelIsRefusedNeverGuessed :
    Instr.wf (.mcrT32 0#4) = true ∧ (el1Env false false 0 0 0 1).conditionPassed = true ∧
    (el1Env false false 0 0 0 1).el = .el1 ∧
    faultOf (exec (.mcrT32 0#4) (start { full64 with haveEL2 := false } (el1Env false false 1 1 0 0)))
      = some (.systemAccessTrap .el3 0x03) ∧
    faultOf (exec (.mcrT32 0#4) (start { full64 with haveEL3 := false } (el1Env true false 1 0 0 0)))
      = some (.systemAccessTrap .el2 0x03) ∧
    refusalOf (exec (.mcrT32 0#4) (start { Config.full with haveEL2 := false } (el1Env false false 0 0 0 1)))
      = some .absentEL := by decide

theorem witness_InputsOfAnAbsentLevelDoNotMatter :
    (el1Env true true 0 0 0 1).conditionPassed = true ∧ (el1Env true true 0 0 0 1).el = .el1 ∧
    ({ Config.full with haveEL2 := false } : Config).haveEL2 = false ∧ noEL3.haveEL3 = false := by decide

/-- EL3, and each level below. -/
theorem witness_OnlyEL3CompletesAnAccess :
    Instr.wf (.mcrT32 0#4) = true ∧ atEL3.env.conditionPassed = true ∧ atEL3.env.el = .el3 ∧
    ¬ (atEL3.env.scrNS = 0#1 ∧ atEL3.env.cp15sdisable2 = .high) ∧ (∃ t, exec (.mcrT32 0#4) atEL3 = .next t) ∧
    v72.el = .el1 ∧ v72.conditionPassed = true ∧ ({ Env.reset with el := .el0 } : Env).el = .el0 ∧
    ({ Env.reset with el := .el2 } : Env).el = .el2 ∧ Config.full.haveEL2 = true ∧ Config.full.haveEL3 = true :=
  ⟨rfl, rfl, rfl, by decide, ⟨_, rfl⟩, rfl, rfl, rfl, rfl, rfl, rfl⟩

theorem witness_RtFifteenIsRefusedByName :
    (14#4 : BitVec 4) ≠ 0b1111#4 ∧ refusalOf (exec (.mcrT32 15#4) atEL0) = some .rtIs15 ∧
    refusalOf (exec (.mcrT32 14#4) atEL0) = none := by decide

theorem witness_BelowEL3NothingButThePcChanges :
    atEL0.env.el ≠ .el3 ∧ ∃ t, exec (.mcrT32 14#4) atEL0 = .next t := ⟨by decide, _, rfl⟩

theorem witness_BelowEL3NothingIsLearntOfSDCR : atEL0.env.el ≠ .el3 ∧ v72.el ≠ .el3 := by decide

/-- A write at EL3, and a reset, each of which changes SDCR. -/
theorem witness_OnlyResetAndMcrAtEL3ChangeSDCR :
    (∃ t, step (onWord atEL3 0xEE010F33) = .next t ∧ t.sdcr ≠ (onWord atEL3 0xEE010F33).sdcr) ∧
    (∃ t, step (withEvent atEL3 .reset) = .next t ∧ t.sdcr ≠ (withEvent atEL3 .reset).sdcr) :=
  ⟨⟨_, rfl, by decide⟩, ⟨_, rfl, by decide⟩⟩

/-- At EL0, an instruction and then a register written by the environment. -/
theorem witness_SoftwareBelowEL3NeverChangesSDCR :
    let s : State := { atEL0 with agenda := [.execute, .event (.setReg 0 7#32)] }
    s.quiet ∧ s.env.el ≠ .el3 ∧ ∃ t, Host.Core.run Sys2Proof.core 2 s = .next t :=
  ⟨by simp [State.quiet], by decide, _, rfl⟩

theorem witness_ContextSynchronizationMakesTheWriteVisible :
    Instr.dir (.mcrA32 14#4 0#4) = .write ∧ (Instr.rt (.mcrA32 14#4 0#4)).toNat = (0 : Fin 15).val ∧
    atEL3.env.conditionPassed = true ∧ (∃ t, exec (.mcrA32 14#4 0#4) atEL3 = .next t) ∧
    (withEvent atEL3 .contextSync).agenda = .event .contextSync :: [] ∧ atEL3.synced = true :=
  ⟨rfl, rfl, rfl, ⟨_, rfl⟩, rfl, rfl⟩

theorem witness_EnvironmentEventsChangeTheirOwnPart :
    (withEvent atEL3 (.inputs v72)).agenda = .event (.inputs v72) :: [] ∧
    (withEvent atEL3 (.setReg 14 7#32)).agenda = .event (.setReg 14 7#32) :: [] ∧
    (withEvent atEL3 (.setPc 7#32)).agenda = .event (.setPc 7#32) :: [] ∧
    (withEvent atEL3 (.loadByte 0xFFFFFFFF#32 7#8)).agenda = .event (.loadByte 0xFFFFFFFF#32 7#8) :: [] := by decide

/-- P3: a run that ends in a Hyp trap at its first step; and one refused after an event. -/
theorem witness_RunEndsAtTheFirstTerminalOutcome :
    faultOf (Host.Core.run Sys2Proof.core 3
      { onWord atEL3 0xEE114F33 with env := { el1Env true true 0 1 0 0 with instrSet := .t32 } }) = some (.hypTrap 0x03) ∧
    faultOf (Host.Core.run Sys2Proof.core 3
      { onWord atEL3 0xEE014F33 with env := { atEL3.env with cp15sdisable2 := .high, instrSet := .t32 } }) =
        some .undefined ∧
    refusalOf (Host.Core.run Sys2Proof.core 3 (withEvent State.reset .contextSync)) = some .noInstruction ∧
    refusalOf (Host.Core.run Sys2Proof.core 3 (onWord atEL3 0xEE110F32)) = some .notSDCR ∧
    refusalOf (Host.Core.run Sys2Proof.core 3 (onWord atEL3 0xEE11FF33)) = some .rtIs15 ∧
    refusalOf (Host.Core.run Sys2Proof.core 3
      { onWord atEL3 0xEE114F33 with
        cfg := { Config.full with haveEL2 := false }
        env := { el1Env true true 0 1 0 0 with instrSet := .t32 } }) = some .absentEL := by decide

theorem witness_MappingToMDCRChangesNoInstruction :
    ({ Config.full with mappedToMDCREL3 := true } : Config).mappedToMDCREL3 = true ∧
    Config.full.mappedToMDCREL3 = false := by decide

/-- Two values that differ in SCCD alone. -/
theorem witness_SccdProhibitsTheCycleCounterOnly :
    (0x00820000#32 &&& ~~~ 0x00800000#32 : Word) = 0x00020000#32 &&& ~~~ 0x00800000#32 := by decide

/-- The three descriptions of EPMAD: FULL, PMU, and absent in PMU_NOEXT and MIN. -/
theorem witness_EpmadRestrictsTheExternalDebugger :
    (Config.full.featDebug84 = true ∧ Config.full.featPMUv3 = true ∧ Config.full.pmuExtDebugIf = true) ∧
    (Config.pmu.featDebug84 = false ∧ Config.pmu.featPMUv3 = true ∧ Config.pmu.pmuExtDebugIf = true) ∧
    Config.pmuNoExt.pmuExtDebugIf = false ∧ Config.min.featPMUv3 = false := by decide

theorem witness_EdadRestrictsTheExternalDebugger :
    Config.full.featDebug84 = true ∧ Config.v82.featDebug84 = false ∧ Config.v82.featDebug82 = true := by decide

theorem witness_EdadWithoutDebugExtensions :
    Config.min.featDebug84 = false ∧ Config.min.featDebug82 = false := by decide

/-- EL3 absent in Secure state, EL3 present, Non-secure state; both Effective values; the override. -/
theorem witness_SteGovernsTraceInSecureState :
    Config.full.featTrace84 = true ∧ noEL3.featTrace84 = true ∧ noEL3.haveEL3 = false ∧ Env.reset.isSecure = true ∧
    Config.full.haveEL3 = true ∧ effectiveSTE Config.full Env.reset 0#32 = .ok 0#1 ∧
    effectiveSTE Config.full Env.reset 0x00040000#32 = .ok 1#1 ∧
    ({ Env.reset with authOverrideSTE := true } : Env).authOverrideSTE = true ∧
    ({ Env.reset with isSecure := false } : Env).isSecure = false := by decide

theorem witness_SpmeGovernsEventCountingInSecureState :
    Config.full.featPMUv3 = true ∧ Config.full.featDebug82 = true ∧ Config.pmu.featPMUv3 = true ∧
    Config.pmu.featDebug82 = false ∧ noEL3.featPMUv3 = true ∧ noEL3.haveEL3 = false ∧ Env.reset.isSecure = true ∧
    Config.full.haveEL3 = true ∧ effectiveSPME Config.full Env.reset 0#32 = .ok 0#1 := by decide

theorem witness_QuestionsAboutAbsentFeaturesAreRefused :
    Config.min.featTrace84 = false ∧ Config.min.featPMUv3 = false := by decide

/-- The four values of SPD, both Security states, EL3 using AArch32. -/
theorem witness_SpdGovernsSecureDebugExceptions :
    (0#32 : Word).extractLsb' 14 2 = 0b00#2 ∧ (0x4000#32 : Word).extractLsb' 14 2 = 0b01#2 ∧
    (0x8000#32 : Word).extractLsb' 14 2 = 0b10#2 ∧ (0xC000#32 : Word).extractLsb' 14 2 = 0b11#2 ∧
    ({ Env.reset with isSecure := false } : Env).isSecure = false ∧ Env.reset.isSecure = true ∧
    Config.full.el3AArch32 = true := by decide

theorem witness_SecureEL0DebugFollowsPrivilegedOrSuiden :
    securePrivDebugExceptionsEnabledBySDCR Env.reset 0xC000#32 = true ∧
    securePrivDebugExceptionsEnabledBySDCR Env.reset 0x8000#32 = false ∧ Env.reset.isSecure = true := by decide

theorem witness_ReservedSpdBehavesAsLegacyMode :
    Instr.wf (.mcrA32 14#4 0#4) = true ∧ Instr.dir (.mcrA32 14#4 0#4) = .write ∧
    (Instr.rt (.mcrA32 14#4 0#4)).toNat = (0 : Fin 15).val ∧
    (reservedFixed.setReg 0 0x4000#32).env.conditionPassed = true ∧ (reservedFixed.setReg 0 0x4000#32).env.el = .el3 ∧
    ¬ WriteBlocked (reservedFixed.setReg 0 0x4000#32).env ∧
    ((reservedFixed.setReg 0 0x4000#32).getReg 0).extractLsb' 14 2 = 0b01#2 ∧
    Instr.wf (.mrcA32 14#4 0#4) = true ∧ Instr.dir (.mrcA32 14#4 0#4) = .read ∧
    reservedFixed.sdcr.extractLsb' 14 2 = 0b01#2 ∧ reservedFixed.cfg.spdReservedReadback = some 0#2 := by decide

/-- FULL, and MIN with only what description (b) of SPME needs. -/
theorem witness_ControlsJustAfterReset :
    (withEvent atEL3 .reset).agenda = .event .reset :: [] ∧ Config.full.haveEL3 = true ∧ Config.full.el3AArch32 = true ∧
    Config.full.featTrace84 = true ∧ Config.full.featPMUv3 = true ∧ Config.full.featDebug82 = true ∧
    Config.pmu.haveEL3 = true ∧ Config.pmu.el3AArch32 = true ∧ Config.pmu.featPMUv3 = true ∧
    Config.pmu.featDebug82 = false := by decide

/-- Two values that differ in RES0 bits alone. -/
theorem witness_ControlsIgnoreRes0Bits :
    (0xFF512345#32 &&& wmask Config.full : Word) = 0x00100000#32 &&& wmask Config.full := by decide

end Sys2Proof.Tests
end

section
/-!
SUPPORT. The control outputs by description: what the bits of EDAD and SPME decide in each of their descriptions
(60_exceptions.md R116, R117, R126 to R128).
-/

namespace Sys2Proof.Machine

open Sys2Proof

/-! ### EDAD -/

theorem edad_eq_one {w : Word} : edad w = 1#1 ↔ w.getLsbD 20 = true := by
  simp [edad, BitVec.eq_of_getLsbD_eq_iff]

theorem edadDescription_eq_a {cfg : Config} (h84 : cfg.featDebug84 = true) : edadDescription cfg = .a := by
  simp [edadDescription, h84]

theorem edadDescription_eq_b {cfg : Config} (h84 : cfg.featDebug84 = false) (h82 : cfg.featDebug82 = true) :
    edadDescription cfg = .b := by
  simp [edadDescription, h84, h82]

/-- In descriptions (a) and (b) the `0b1` row names three targets, whatever the choice of R118 for `OSLAR_EL1`. -/
theorem edadCovers_iff {cfg : Config} (h : edadDescription cfg = .a ∨ edadDescription cfg = .b)
    (target : DebugTarget) :
    edadCovers cfg target = true ↔ target = .breakpoint ∨ target = .watchpoint ∨ target = .oslar := by
  cases target with
  | breakpoint => simp [edadCovers]
  | watchpoint => simp [edadCovers]
  | otherDebug => simp [edadCovers]
  | oslar =>
    obtain ha | hb := h
    · simp [edadCovers, ha]
    · simp [edadCovers, hb]

/-- R116: no override by the authentication interface. -/
theorem extDebugAccess_not_permitted_of_a {cfg : Config} (h : edadDescription cfg = .a) (env : Env) (w : Word)
    (target : DebugTarget) (nonsecure : Bool) :
    extDebugAccessPermittedBySDCR cfg env w target nonsecure = false ↔
      edad w = 1#1 ∧ nonsecure = true ∧ edadCovers cfg target = true := by
  simp [extDebugAccessPermittedBySDCR, h, and_assoc]

/-- R117: the Security state of the access does not matter. -/
theorem extDebugAccess_not_permitted_of_b {cfg : Config} (h : edadDescription cfg = .b) (env : Env) (w : Word)
    (target : DebugTarget) (nonsecure : Bool) :
    extDebugAccessPermittedBySDCR cfg env w target nonsecure = false ↔
      edad w = 1#1 ∧ edadCovers cfg target = true ∧ env.authOverrideEDAD = false := by
  simp [extDebugAccessPermittedBySDCR, h, and_assoc]

/-! ### SPME -/

theorem spmeDescription_eq_a {cfg : Config} (hpmu : cfg.featPMUv3 = true) (h82 : cfg.featDebug82 = true) :
    spmeDescription cfg = .a := by
  simp [spmeDescription, hpmu, h82]

theorem spmeDescription_eq_b {cfg : Config} (hpmu : cfg.featPMUv3 = true) (h82 : cfg.featDebug82 = false) :
    spmeDescription cfg = .b := by
  simp [spmeDescription, hpmu, h82]

/-- R128, where the Effective value is not the stored one. -/
theorem effectiveSPME_noEL3_secure {cfg : Config} {env : Env} (hpmu : cfg.featPMUv3 = true)
    (h3 : cfg.haveEL3 = false) (hs : env.isSecure = true) (w : Word) : effectiveSPME cfg env w = .ok 1#1 := by
  simp [effectiveSPME, hpmu, h3, hs]

theorem effectiveSPME_stored {cfg : Config} {env : Env} (hpmu : cfg.featPMUv3 = true)
    (h : cfg.haveEL3 = true ∨ env.isSecure = false) (w : Word) : effectiveSPME cfg env w = .ok (spme w) := by
  obtain h3 | hs := h
  · simp [effectiveSPME, hpmu, h3]
  · simp [effectiveSPME, hpmu, hs]

/-- R126: the Effective value alone decides. -/
theorem secureEventCounting_of_a {cfg : Config} {env : Env} {w : Word} {e : Bit} (h : spmeDescription cfg = .a)
    (he : effectiveSPME cfg env w = .ok e) :
    secureEventCountingProhibitedBySDCR cfg env w = .ok (decide (env.isSecure = true ∧ e = 0#1)) := by
  simp [secureEventCountingProhibitedBySDCR, he, h, Bool.beq_eq_decide_eq]

/-- R127: `ExternalSecureNoninvasiveDebugEnabled()` lifts the prohibition. -/
theorem secureEventCounting_of_b {cfg : Config} {env : Env} {w : Word} {e : Bit} (h : spmeDescription cfg = .b)
    (he : effectiveSPME cfg env w = .ok e) :
    secureEventCountingProhibitedBySDCR cfg env w =
      .ok (decide (env.isSecure = true ∧ e = 0#1 ∧ env.extSecureNoninvasiveDebugEnabled = false)) := by
  simp [secureEventCountingProhibitedBySDCR, he, h, Bool.and_assoc, Bool.beq_eq_decide_eq]

end Sys2Proof.Machine
end

section
/-!
CERTIFICATE. EDAD and SPME (60_exceptions.md R116, R117, R126 to R128).
-/

namespace Sys2Proof.Machine

open Sys2Proof

/-- Settles O42: EDAD's description, then the targets it names. -/
theorem edadRestrictsTheExternalDebugger : Obligations.EdadRestrictsTheExternalDebugger := by
  intro cfg env w target nonsecure
  refine ⟨fun h84 => ?_, fun h84 h82 => ?_⟩
  · have ha := edadDescription_eq_a h84
    rw [extDebugAccess_not_permitted_of_a ha, edad_eq_one, edadCovers_iff (.inl ha)]
  · have hb := edadDescription_eq_b h84 h82
    rw [extDebugAccess_not_permitted_of_b hb, edad_eq_one, edadCovers_iff (.inr hb)]

/-- Settles O46: the Effective value, then SPME's description. -/
theorem spmeGovernsEventCountingInSecureState : Obligations.SpmeGovernsEventCountingInSecureState := by
  intro cfg env w hpmu
  refine ⟨fun h3 hs => effectiveSPME_noEL3_secure hpmu h3 hs w, fun h => effectiveSPME_stored hpmu h w,
    fun e he => ⟨fun h82 => ?_, fun h82 => ?_⟩⟩
  · exact secureEventCounting_of_a (spmeDescription_eq_a hpmu h82) he
  · exact secureEventCounting_of_b (spmeDescription_eq_b hpmu h82) he

end Sys2Proof.Machine
end

section
/-!
SUPPORT. Everything the two transfers, an instruction, an event and a run can change: the frames that the certificates
below cite (40_sdcr_access.md R80 to R82).
-/

namespace Sys2Proof.Machine

open Sys2Proof

/-! ### The transfers -/

/-- A completed read sets its register, and at most counts a draw. -/
theorem readTransfer_eq (t : Fin 15) (s : State) :
    ∃ n, readTransfer t s = { s with x := s.x.set t s.readSDCR.1, draws := n } := by
  obtain ⟨n, hn⟩ := s.readSDCR_state
  exact ⟨n, by simp [readTransfer, hn, State.setReg]⟩

@[simp] theorem readTransfer_cfg (t : Fin 15) (s : State) : (readTransfer t s).cfg = s.cfg := by
  obtain ⟨n, hn⟩ := readTransfer_eq t s
  rw [hn]

@[simp] theorem readTransfer_sdcr (t : Fin 15) (s : State) : (readTransfer t s).sdcr = s.sdcr := by
  obtain ⟨n, hn⟩ := readTransfer_eq t s
  rw [hn]

@[simp] theorem readTransfer_pc (t : Fin 15) (s : State) : (readTransfer t s).pc = s.pc := by
  obtain ⟨n, hn⟩ := readTransfer_eq t s
  rw [hn]

@[simp] theorem readTransfer_env (t : Fin 15) (s : State) : (readTransfer t s).env = s.env := by
  obtain ⟨n, hn⟩ := readTransfer_eq t s
  rw [hn]

@[simp] theorem readTransfer_unsynced (t : Fin 15) (s : State) : (readTransfer t s).unsynced = s.unsynced := by
  obtain ⟨n, hn⟩ := readTransfer_eq t s
  rw [hn]

@[simp] theorem readTransfer_code (t : Fin 15) (s : State) : (readTransfer t s).code = s.code := by
  obtain ⟨n, hn⟩ := readTransfer_eq t s
  rw [hn]

@[simp] theorem readTransfer_agenda (t : Fin 15) (s : State) : (readTransfer t s).agenda = s.agenda := by
  obtain ⟨n, hn⟩ := readTransfer_eq t s
  rw [hn]

@[simp] theorem readTransfer_getReg_self (t : Fin 15) (s : State) :
    (readTransfer t s).getReg t = s.readSDCR.1 := by
  simp [readTransfer]

theorem readTransfer_getReg_of_ne {t j : Fin 15} (s : State) (h : j ≠ t) :
    (readTransfer t s).getReg j = s.getReg j := by
  obtain ⟨n, hn⟩ := s.readSDCR_state
  simp only [readTransfer, hn]
  exact State.getReg_setReg_of_ne _ _ h

/-! ### Instructions -/

/-- The access of a direction: what an instruction of it does, and what a record of SDCR does. -/
def accessOf (dir : Dir) (rt : BitVec 4) (s : State) : Result :=
  match dir with
  | .read => readAccess rt s
  | .write => writeAccess rt s

/-- Every form is the access of its direction behind the check of its condition bits, which T32 fixes to always. -/
theorem exec_eq_guarded (i : Instr) (s : State) :
    exec i s = if condOk i.toRecord.cond then accessOf i.dir i.rt s else .refused .notSDCR := by
  cases i <;> rfl

theorem Instr.wf_eq (i : Instr) : i.wf = (condOk i.toRecord.cond && rtOk i.rt) := by
  cases i with
  | mrcA32 cond rt | mcrA32 cond rt => rfl
  | mrcT32 rt | mcrT32 rt => exact (Bool.true_and _).symm

/-- A well-formed instruction does the access of its direction, whatever its condition bits. -/
theorem exec_eq_access {i : Instr} (hw : i.wf = true) (s : State) : exec i s = accessOf i.dir i.rt s := by
  rw [Instr.wf_eq, Bool.and_eq_true] at hw
  rw [exec_eq_guarded, if_pos hw.1]

theorem accessOf_rt_fifteen (dir : Dir) (s : State) : accessOf dir 15#4 s = .refused .rtIs15 := by
  cases dir <;> rfl

/-- An instruction that is not well-formed is refused in the same way at every state. -/
theorem exec_of_not_wf_const {i : Instr} (hw : i.wf = false) : ∃ r, ∀ s, exec i s = .refused r := by
  rw [Instr.wf_eq] at hw
  cases hc : condOk i.toRecord.cond with
  | false => exact ⟨.notSDCR, fun s => by simp [exec_eq_guarded, hc]⟩
  | true =>
    have hrt : i.rt = 15#4 := by simpa [hc, rtOk] using hw
    exact ⟨.rtIs15, fun s => by simp [exec_eq_guarded, hc, hrt, accessOf_rt_fifteen]⟩

/-- `exec_next` by direction: the condition failed, or a read or a write completed at EL3. -/
theorem exec_next_cases {i : Instr} {s t : State} (h : exec i s = .next t) :
    (s.env.conditionPassed = false ∧ t = s.advancePc) ∨
    (s.env.conditionPassed = true ∧ s.env.el = .el3 ∧ ∃ k, rtIndex i.rt = some k ∧
      ((i.dir = .read ∧ t = (readTransfer k s).advancePc) ∨
       (i.dir = .write ∧ ¬ WriteBlocked s.env ∧ t = (writeTransfer k s).advancePc))) := by
  obtain ⟨-, ⟨k, hk, ho, ht⟩ | ⟨ho, ht⟩⟩ := exec_next h
  · obtain ⟨hc, hel, hb⟩ := accessOutcome_completed ho
    refine .inr ⟨hc, hel, k, hk, ?_⟩
    unfold transferOf at ht
    cases hd : i.dir with
    | read => exact .inl ⟨rfl, by rw [ht, hd]⟩
    | write => exact .inr ⟨rfl, hb hd, by rw [ht, hd]⟩
  · exact .inl ⟨accessOutcome_conditionFailed ho, ht⟩

/-- What no form changes. -/
theorem exec_frame {i : Instr} {s t : State} (h : exec i s = .next t) :
    t.cfg = s.cfg ∧ t.env = s.env ∧ t.code = s.code ∧ t.agenda = s.agenda ∧ t.pc = s.pc + 4#32 := by
  obtain ⟨-, rfl⟩ | ⟨-, -, k, -, ⟨-, rfl⟩ | ⟨-, -, rfl⟩⟩ := exec_next_cases h
  · exact ⟨rfl, rfl, rfl, rfl, rfl⟩
  · simp
  · simp [writeTransfer]

/-- Below EL3 only the failed condition answers a next state (60_exceptions.md R110). -/
theorem exec_next_below_el3 {i : Instr} {s t : State} (hel : s.env.el ≠ .el3) (h : exec i s = .next t) :
    t = s.advancePc := by
  obtain ⟨-, ht⟩ | ⟨-, hel3, -⟩ := exec_next_cases h
  · exact ht
  · exact absurd hel3 hel

/-! ### The invariant -/

/-- The invariant depends on four fields. -/
theorem State.Inv.of_eq {s t : State} (h : s.Inv) (hcfg : t.cfg = s.cfg) (hsdcr : t.sdcr = s.sdcr)
    (hun : t.unsynced = s.unsynced) (hcode : t.code = s.code) : t.Inv := by
  simpa [State.Inv, State.observable, hcfg, hsdcr, hun, hcode] using h

theorem State.Inv.hardwiredZero_sdcr {s : State} (h : s.Inv) : hardwiredZero s.cfg s.sdcr = true := by
  obtain ⟨-, hobs, -⟩ := h
  rw [List.all_eq_true] at hobs
  exact hobs _ List.mem_cons_self

theorem hardwiredZero_iff {cfg : Config} {v : Word} :
    hardwiredZero cfg v = true ↔ v &&& ~~~ stored cfg = 0#32 := by
  simp [hardwiredZero]

/-- A new value that is 0 in the hardwired bits keeps the invariant, whether the old ones may still be acted on or
not. -/
theorem State.Inv.of_sdcr {s t : State} (h : s.Inv) (hcfg : t.cfg = s.cfg) (hcode : t.code = s.code)
    (hsdcr : t.sdcr &&& ~~~ stored s.cfg = 0#32) (hun : ∀ v ∈ t.unsynced, v ∈ s.observable) : t.Inv := by
  obtain ⟨hwf, hobs, hmem⟩ := h
  rw [List.all_eq_true] at hobs
  refine ⟨hcfg ▸ hwf, ?_, hcode ▸ hmem⟩
  rw [hcfg, List.all_eq_true, State.observable]
  intro v hv
  obtain rfl | hv := List.mem_cons.1 hv
  · exact hardwiredZero_iff.2 hsdcr
  · exact hobs v (hun v hv)

theorem exec_keeps_inv {i : Instr} {s t : State} (hs : s.Inv) (h : exec i s = .next t) : t.Inv := by
  obtain ⟨-, rfl⟩ | ⟨-, -, k, -, ⟨-, rfl⟩ | ⟨-, -, rfl⟩⟩ := exec_next_cases h
  · exact hs.of_eq rfl rfl rfl rfl
  · exact hs.of_eq (by simp) (by simp) (by simp) (by simp)
  · exact hs.of_sdcr rfl rfl (writeValue_hardwired _ _) fun v hv => hv

theorem applyEvent_keeps_inv {s : State} (hs : s.Inv) (e : Event) : (s.applyEvent e).Inv := by
  cases e with
  | reset =>
    obtain ⟨v, n, hr⟩ := s.applyReset_cases
    simp only [State.applyEvent, hr]
    exact hs.of_sdcr rfl rfl (resetDrawMask_stored _ _) (by simp)
  | contextSync => exact hs.of_sdcr rfl rfl (hardwiredZero_iff.1 hs.hardwiredZero_sdcr) (by simp [State.applyEvent])
  | inputs e => exact hs.of_eq rfl rfl rfl rfl
  | setReg i v => exact hs.of_eq rfl rfl rfl rfl
  | setPc v => exact hs.of_eq rfl rfl rfl rfl
  | loadByte a b =>
    obtain ⟨hwf, hobs, hmem⟩ := hs
    exact ⟨hwf, hobs, Memory.set_wf b hmem a.isLt⟩

theorem step_keeps_inv {s t : State} (hs : s.Inv) (h : step s = .next t) : t.Inv := by
  have hrest : ∀ rest, State.Inv { s with agenda := rest } := fun rest => hs.of_eq rfl rfl rfl rfl
  obtain ⟨e, rest, -, rfl⟩ | ⟨i, rest, -, -, hx⟩ := step_next h
  · exact applyEvent_keeps_inv (hrest rest) e
  · exact exec_keeps_inv (hrest rest) hx

/-! ### What a step keeps -/

theorem applyEvent_cfg (s : State) (e : Event) : (s.applyEvent e).cfg = s.cfg := by
  cases e <;> rfl

theorem applyEvent_agenda (s : State) (e : Event) : (s.applyEvent e).agenda = s.agenda := by
  cases e <;> rfl

/-- No event but a reset changes SDCR (10_state.md R23). -/
theorem applyEvent_sdcr {s : State} {e : Event} (hr : e ≠ .reset) : (s.applyEvent e).sdcr = s.sdcr := by
  cases e with
  | reset => exact absurd rfl hr
  | contextSync | inputs | setReg | setPc | loadByte => rfl

theorem applyEvent_env {s : State} {e : Event} (hr : e ≠ .reset) (hi : ∀ v, e ≠ .inputs v) :
    (s.applyEvent e).env = s.env := by
  cases e with
  | reset => exact absurd rfl hr
  | inputs v => exact absurd rfl (hi v)
  | contextSync | setReg | setPc | loadByte => rfl

theorem step_cfg {s t : State} (h : step s = .next t) : t.cfg = s.cfg := by
  obtain ⟨e, rest, -, rfl⟩ | ⟨i, rest, -, -, hx⟩ := step_next h
  · exact applyEvent_cfg _ e
  · exact (exec_frame hx).1

/-- An agenda only loses entries. -/
theorem State.quiet.of_subset {s t : State} (h : s.quiet) (hsub : t.agenda ⊆ s.agenda) : t.quiet :=
  fun a ha => h a (hsub ha)

/-- A quiet step below EL3 keeps SDCR and the inputs, and is followed by a quiet state. -/
theorem step_quiet {s t : State} (hq : s.quiet) (hel : s.env.el ≠ .el3) (h : step s = .next t) :
    t.quiet ∧ t.sdcr = s.sdcr ∧ t.env = s.env := by
  obtain ⟨e, rest, ha, rfl⟩ | ⟨i, rest, ha, -, hx⟩ := step_next h
  · obtain ⟨hr, hi⟩ := hq (.event e) (by simp [ha])
    have hr' : e ≠ .reset := by simpa using hr
    refine ⟨hq.of_subset ?_, applyEvent_sdcr hr', applyEvent_env hr' (by simpa using hi)⟩
    rw [applyEvent_agenda, ha]
    exact List.subset_cons_self _ _
  · cases exec_next_below_el3 (s := { s with agenda := rest }) hel hx
    refine ⟨hq.of_subset ?_, rfl, rfl⟩
    obtain ha | ⟨-, rfl⟩ := ha
    · rw [ha]
      exact List.subset_cons_self _ _
    · exact List.nil_subset _

/-! ### Runs -/

/-- What every step keeps holds at the end of a run: the one induction over runs that go on. -/
theorem run_next_induction {P : State → Prop} (hstep : ∀ s t, P s → step s = .next t → P t) {k : Nat} {s t : State}
    (hs : P s) (h : Host.Core.run Sys2Proof.core k s = .next t) : P t := by
  induction k generalizing s with
  | zero =>
    cases h
    exact hs
  | succ k ih =>
    simp only [Host.Core.run] at h
    split at h
    · exact ih (hstep _ _ hs ‹_›) h
    · cases h
    · cases h

end Sys2Proof.Machine
end

section
/-!
CERTIFICATE. The invariant, the configuration and isolation below EL3, step by step and along runs (10_state.md R23, R37;
00_scope.md R5; 60_exceptions.md R110).
-/

namespace Sys2Proof.Machine

open Sys2Proof

/-- Settles O3: an event or an instruction, each keeping the hardwired bits 0. -/
theorem everyStepKeepsTheInvariant : Obligations.EveryStepKeepsTheInvariant :=
  fun _ _ hs h => step_keeps_inv hs h

/-- Settles O4, by induction over the run. -/
theorem invariantAndConfigurationHoldAlongRuns : Obligations.InvariantAndConfigurationHoldAlongRuns := by
  intro k s t hs h
  refine run_next_induction (P := fun u => u.Inv ∧ u.cfg = s.cfg) ?_ ⟨hs, rfl⟩ h
  rintro u v ⟨hu, hcfg⟩ hstep
  exact ⟨step_keeps_inv hu hstep, (step_cfg hstep).trans hcfg⟩

/-- Settles O34, by induction over the run: a quiet step below EL3 leaves a quiet state below EL3. -/
theorem softwareBelowEL3NeverChangesSDCR : Obligations.SoftwareBelowEL3NeverChangesSDCR := by
  intro k s t hq hel h
  have hstep : ∀ u v : State, (u.quiet ∧ u.sdcr = s.sdcr ∧ u.env = s.env) → step u = .next v →
      v.quiet ∧ v.sdcr = s.sdcr ∧ v.env = s.env := by
    rintro u v ⟨hqu, hsdcr, henv⟩ hstep
    obtain ⟨hqv, hsdcr', henv'⟩ := step_quiet hqu (henv ▸ hel) hstep
    exact ⟨hqv, hsdcr'.trans hsdcr, henv'.trans henv⟩
  exact (run_next_induction hstep ⟨hq, rfl, rfl⟩ h).2

end Sys2Proof.Machine
end

section
/-!
SUPPORT. The word as its ten fields (30_encoding.md R63, R64): the layout that the decoder reads and the encoder writes,
and the masks of R65 as fields.
-/

namespace Sys2Proof

/-! ### A word and its fields -/

/-- The ten fields of a word, put together again. -/
theorem append_fields (w : Word) :
    w.extractLsb' 28 4 ++ w.extractLsb' 24 4 ++ w.extractLsb' 21 3 ++ w.extractLsb' 20 1 ++ w.extractLsb' 16 4
      ++ w.extractLsb' 12 4 ++ w.extractLsb' 8 4 ++ w.extractLsb' 5 3 ++ w.extractLsb' 4 1 ++ w.extractLsb' 0 4 = w := by
  refine Eq.trans ?_ (BitVec.extractLsb'_eq_self (x := w))
  repeat rw [BitVec.extractLsb'_append_extractLsb'_eq_extractLsb' (by decide)]

/-- Bit [20] of a direction. -/
def dirBit : Dir → BitVec 1
  | .read => 1#1
  | .write => 0#1

/-- The layout of 30_encoding.md R63: `w` holds the fields of `r`. -/
structure HasLayout (w : Word) (r : SysRegAccess) : Prop where
  cond : w.extractLsb' 28 4 = r.cond
  op : w.extractLsb' 24 4 = 0b1110#4
  opc1 : w.extractLsb' 21 3 = r.opc1
  dir : w.extractLsb' 20 1 = dirBit r.dir
  crn : w.extractLsb' 16 4 = r.crn
  rt : w.extractLsb' 12 4 = r.rt
  coproc : w.extractLsb' 8 4 = r.coproc
  opc2 : w.extractLsb' 5 3 = r.opc2
  one : w.extractLsb' 4 1 = 1#1
  crm : w.extractLsb' 0 4 = r.crm

theorem hasLayout_append (r : SysRegAccess) :
    HasLayout
      (r.cond ++ 0b1110#4 ++ r.opc1 ++ dirBit r.dir ++ r.crn ++ r.rt ++ r.coproc ++ r.opc2 ++ 1#1 ++ r.crm) r := by
  constructor <;>
    simp (disch := decide) only [BitVec.extractLsb'_append_eq_of_le, BitVec.extractLsb'_append_eq_of_add_le] <;>
    exact BitVec.extractLsb'_eq_self

/-- The encoder writes the layout. -/
theorem hasLayout_encodeRecord (r : SysRegAccess) : HasLayout (encodeRecord r) r := by
  have h := hasLayout_append r
  unfold encodeRecord
  cases hd : r.dir <;> simpa [hd, dirBit] using h

/-- A record has one word in the layout. -/
theorem HasLayout.unique {v w : Word} {r : SysRegAccess} (hv : HasLayout v r) (hw : HasLayout w r) : v = w := by
  rw [← append_fields v, ← append_fields w, hv.cond, hv.op, hv.opc1, hv.dir, hv.crn, hv.rt, hv.coproc, hv.opc2, hv.one,
    hv.crm, hw.cond, hw.op, hw.opc1, hw.dir, hw.crn, hw.rt, hw.coproc, hw.opc2, hw.one, hw.crm]

theorem bit_eq_dirBit (b : BitVec 1) : b = dirBit (if b = 1#1 then .read else .write) := by
  revert b
  decide

/-- The decoder reads the layout. -/
theorem decodeRecord_eq_ok {set : InstrSet} {w : Word} {r : SysRegAccess} :
    decodeRecord set w = .ok r ↔ topBitsOk set r.cond = true ∧ HasLayout w r := by
  constructor
  · intro h
    unfold decodeRecord at h
    split at h
    · rename_i hc
      cases h
      simp only [Bool.and_eq_true, beq_iff_eq] at hc
      obtain ⟨⟨htop, hop⟩, hone⟩ := hc
      exact ⟨htop, rfl, hop, rfl, by simpa using bit_eq_dirBit _, rfl, rfl, rfl, rfl, hone, rfl⟩
    · cases h
  · rintro ⟨htop, hcond, hop, hopc1, hdir, hcrn, hrt, hcoproc, hopc2, hone, hcrm⟩
    have hd : (if dirBit r.dir = 1#1 then Dir.read else Dir.write) = r.dir := by cases r.dir <;> rfl
    simp [decodeRecord, htop, hcond, hop, hopc1, hdir, hcrn, hrt, hcoproc, hopc2, hone, hcrm, hd]

/-! ### Instructions and their words -/

/-- Everything a record that is an instruction is: it selects SDCR, and its `Rt` is not 15 (30_encoding.md R62, R67). -/
theorem recordInstr_eq_ok {set : InstrSet} {r : SysRegAccess} {i : Instr} :
    recordInstr set r = .ok i ↔ r.selectsSDCR = true ∧ rtOk r.rt = true ∧ instrOf set r.dir r.cond r.rt = i := by
  unfold recordInstr
  cases r.selectsSDCR <;> cases rtOk r.rt <;> simp

/-- A record that selects SDCR is known by its direction, condition and `Rt`. -/
theorem eq_sdcrRecord_of_selectsSDCR {r : SysRegAccess} (h : r.selectsSDCR = true) :
    r = sdcrRecord r.dir r.cond r.rt := by
  simp only [SysRegAccess.selectsSDCR, Bool.and_eq_true, beq_iff_eq] at h
  obtain ⟨⟨⟨⟨hcoproc, hopc1⟩, hcrn⟩, hcrm⟩, hopc2⟩ := h
  cases r
  simp_all [sdcrRecord]

@[simp] theorem instrOf_instrSet (set : InstrSet) (dir : Dir) (cond rt : BitVec 4) :
    (instrOf set dir cond rt).instrSet = set := by
  cases set <;> cases dir <;> rfl

/-- The record of the instruction read from bits that may begin one: in T32 the top bits are those that the encoder
writes (30_encoding.md R64). -/
theorem toRecord_instrOf {set : InstrSet} {cond : BitVec 4} (h : topBitsOk set cond = true) (dir : Dir) (rt : BitVec 4) :
    (instrOf set dir cond rt).toRecord = sdcrRecord dir cond rt := by
  cases set with
  | a32 => cases dir <;> rfl
  | t32 =>
    have hc : cond = condAlways := by simpa [topBitsOk] using h
    cases dir <;> simp [instrOf, Instr.toRecord, hc]

/-- The record of a well-formed instruction is that instruction. -/
theorem recordInstr_toRecord {i : Instr} (hw : i.wf = true) :
    topBitsOk i.instrSet i.toRecord.cond = true ∧ recordInstr i.instrSet i.toRecord = .ok i := by
  cases i with
  | mrcA32 cond rt =>
    simp only [Instr.wf, Bool.and_eq_true] at hw
    exact ⟨hw.1, recordInstr_eq_ok.2 ⟨rfl, hw.2, rfl⟩⟩
  | mcrA32 cond rt =>
    simp only [Instr.wf, Bool.and_eq_true] at hw
    exact ⟨hw.1, recordInstr_eq_ok.2 ⟨rfl, hw.2, rfl⟩⟩
  | mrcT32 rt => exact ⟨rfl, recordInstr_eq_ok.2 ⟨rfl, hw, rfl⟩⟩
  | mcrT32 rt => exact ⟨rfl, recordInstr_eq_ok.2 ⟨rfl, hw, rfl⟩⟩

theorem decodeWord_encodeWord {i : Instr} (hw : i.wf = true) : decodeWord i.instrSet (encodeWord i) = .ok i := by
  obtain ⟨htop, hr⟩ := recordInstr_toRecord hw
  have hd : decodeRecord i.instrSet (encodeWord i) = .ok i.toRecord :=
    decodeRecord_eq_ok.2 ⟨htop, hasLayout_encodeRecord _⟩
  simp [decodeWord, hd, hr]

/-- A word that decodes is the word of its instruction, in the set it was read in. -/
theorem encodeWord_of_decodeWord {set : InstrSet} {w : Word} {i : Instr} (h : decodeWord set w = .ok i) :
    i.instrSet = set ∧ encodeWord i = w := by
  unfold decodeWord at h
  split at h
  · rename_i r hr
    obtain ⟨htop, hlay⟩ := decodeRecord_eq_ok.1 hr
    obtain ⟨hsel, -, rfl⟩ := recordInstr_eq_ok.1 h
    refine ⟨instrOf_instrSet _ _ _ _, ?_⟩
    rw [encodeWord, toRecord_instrOf htop, ← eq_sdcrRecord_of_selectsSDCR hsel]
    exact (hasLayout_encodeRecord r).unique hlay
  · cases h

/-! ### Bytes -/

theorem bytesOfWord_wordOfBytes (set : InstrSet) (b0 b1 b2 b3 : Byte) :
    bytesOfWord set (wordOfBytes set b0 b1 b2 b3) = [b0, b1, b2, b3] := by
  cases set <;> simp only [bytesOfWord, wordOfBytes, List.cons.injEq, and_true] <;> refine ⟨?_, ?_, ?_, ?_⟩ <;>
    simp (disch := decide) only [BitVec.extractLsb'_append_eq_of_le, BitVec.extractLsb'_append_eq_of_add_le] <;>
    exact BitVec.extractLsb'_eq_self

/-- What the byte decoder answers is what the word decoder answers for the first four bytes. -/
theorem decode_eq_ok {set : InstrSet} {bytes rest : List Byte} {i : Instr} (h : decode set bytes = .ok (i, rest)) :
    ∃ w, decodeWord set w = .ok i ∧ bytes = bytesOfWord set w ++ rest := by
  match bytes with
  | [] | [_] | [_, _] | [_, _, _] => simp [decode] at h
  | b0 :: b1 :: b2 :: b3 :: more =>
    refine ⟨wordOfBytes set b0 b1 b2 b3, ?_⟩
    rw [decode] at h
    cases hd : decodeWord set (wordOfBytes set b0 b1 b2 b3) with
    | ok j =>
      rw [hd] at h
      cases h
      exact ⟨rfl, by simp [bytesOfWord_wordOfBytes]⟩
    | error e =>
      rw [hd] at h
      cases h

/-! ### The masks of 30_encoding.md R65 -/

theorem word_eq_iff_fields {v w : Word} :
    v = w ↔
      v.extractLsb' 28 4 = w.extractLsb' 28 4 ∧ v.extractLsb' 24 4 = w.extractLsb' 24 4 ∧
      v.extractLsb' 21 3 = w.extractLsb' 21 3 ∧ v.extractLsb' 20 1 = w.extractLsb' 20 1 ∧
      v.extractLsb' 16 4 = w.extractLsb' 16 4 ∧ v.extractLsb' 12 4 = w.extractLsb' 12 4 ∧
      v.extractLsb' 8 4 = w.extractLsb' 8 4 ∧ v.extractLsb' 5 3 = w.extractLsb' 5 3 ∧
      v.extractLsb' 4 1 = w.extractLsb' 4 1 ∧ v.extractLsb' 0 4 = w.extractLsb' 0 4 := by
  refine ⟨fun h => by simp [h], fun ⟨h28, h24, h21, h20, h16, h12, h8, h5, h4, h0⟩ => ?_⟩
  rw [← append_fields v, ← append_fields w, h28, h24, h21, h20, h16, h12, h8, h5, h4, h0]

/-- A mask of all ones leaves a field. -/
theorem and_field_ones : (∀ x : BitVec 4, x &&& 15#4 = x) ∧ (∀ x : BitVec 3, x &&& 7#3 = x) ∧
    (∀ x : BitVec 1, x &&& 1#1 = x) :=
  ⟨fun _ => BitVec.and_allOnes, fun _ => BitVec.and_allOnes, fun _ => BitVec.and_allOnes⟩

/-- The match of R65 with the condition bits left out: every field of SDCR's layout but `cond` and `Rt`. -/
def sdcrMatch : Dir → Word
  | .read => 0x0E110F33#32
  | .write => 0x0E010F33#32

/-- The word holds the record of SDCR with the word's own condition and `Rt`. -/
abbrev HoldsSDCR (w : Word) (dir : Dir) : Prop :=
  HasLayout w (sdcrRecord dir (w.extractLsb' 28 4) (w.extractLsb' 12 4))

theorem holdsSDCR_iff {w : Word} {dir : Dir} :
    HoldsSDCR w dir ↔
      w.extractLsb' 24 4 = 0b1110#4 ∧ w.extractLsb' 21 3 = sdcrOpc1 ∧ w.extractLsb' 20 1 = dirBit dir ∧
      w.extractLsb' 16 4 = sdcrCRn ∧ w.extractLsb' 8 4 = sdcrCoproc ∧ w.extractLsb' 5 3 = sdcrOpc2 ∧
      w.extractLsb' 4 1 = 1#1 ∧ w.extractLsb' 0 4 = sdcrCRm :=
  ⟨fun h => ⟨h.op, h.opc1, h.dir, h.crn, h.coproc, h.opc2, h.one, h.crm⟩,
    fun ⟨op, opc1, dir, crn, coproc, opc2, one, crm⟩ => ⟨rfl, op, opc1, dir, crn, rfl, coproc, opc2, one, crm⟩⟩

theorem mask_eq_sdcrMatch (w : Word) (dir : Dir) : w &&& 0x0FFF0FFF#32 = sdcrMatch dir ↔ HoldsSDCR w dir := by
  obtain ⟨ones4, ones3, ones1⟩ := and_field_ones
  rw [word_eq_iff_fields, holdsSDCR_iff]
  cases dir <;>
    simp [BitVec.extractLsb'_and, ones4, ones3, ones1, sdcrMatch, dirBit, sdcrOpc1, sdcrCRn, sdcrCoproc, sdcrOpc2,
      sdcrCRm]

/-- In T32 the condition bits are matched too (30_encoding.md R64, R65). -/
theorem mask_eq_sdcrMatch_t32 (w : Word) (dir : Dir) :
    w &&& 0xFFFF0FFF#32 = 0xE0000000#32 ||| sdcrMatch dir ↔ w.extractLsb' 28 4 = condAlways ∧ HoldsSDCR w dir := by
  obtain ⟨ones4, ones3, ones1⟩ := and_field_ones
  rw [word_eq_iff_fields, holdsSDCR_iff]
  cases dir <;>
    simp [BitVec.extractLsb'_and, ones4, ones3, ones1, sdcrMatch, dirBit, sdcrOpc1, sdcrCRn, sdcrCoproc, sdcrOpc2,
      sdcrCRm, condAlways]

theorem decodeWord_of_topBits {set : InstrSet} {w : Word} (h : topBitsOk set (w.extractLsb' 28 4) = false) :
    decodeWord set w = .error .notSDCR := by
  simp [decodeWord, decodeRecord, h]

/-- A word that holds SDCR's record is refused only for its condition bits or its `Rt`. -/
theorem decodeWord_of_holdsSDCR {w : Word} {dir : Dir} (set : InstrSet) (h : HoldsSDCR w dir) :
    decodeWord set w =
      if topBitsOk set (w.extractLsb' 28 4) = true then
        (if w.extractLsb' 12 4 = 15#4 then .error .rtIs15
         else .ok (instrOf set dir (w.extractLsb' 28 4) (w.extractLsb' 12 4)))
      else .error .notSDCR := by
  cases htop : topBitsOk set (w.extractLsb' 28 4) with
  | true =>
    rw [decodeWord, decodeRecord_eq_ok.2 ⟨htop, h⟩]
    by_cases hrt : w.extractLsb' 12 4 = 15#4 <;>
      simp [recordInstr, SysRegAccess.selectsSDCR, sdcrRecord, rtOk, hrt]
  | false => simpa using decodeWord_of_topBits htop

theorem decodeWord_of_not_holdsSDCR {w : Word} (set : InstrSet) (h : ∀ dir, ¬ HoldsSDCR w dir) :
    decodeWord set w = .error .notSDCR := by
  unfold decodeWord
  cases hr : decodeRecord set w with
  | ok r =>
    have hlay := (decodeRecord_eq_ok.1 hr).2
    cases hsel : r.selectsSDCR with
    | false => simp [recordInstr, hsel]
    | true =>
      refine absurd ?_ (h r.dir)
      rw [HoldsSDCR, hlay.cond, hlay.rt, ← eq_sdcrRecord_of_selectsSDCR hsel]
      exact hlay
  | error e =>
    unfold decodeRecord at hr
    split at hr
    · cases hr
    · cases hr
      rfl

theorem topBitsOk_a32 {c : BitVec 4} : topBitsOk .a32 c = true ↔ c ≠ 0b1111#4 := by
  simp [topBitsOk, condOk]

theorem topBitsOk_t32 {c : BitVec 4} : topBitsOk .t32 c = true ↔ c = condAlways := by
  simp [topBitsOk]

/-! ### The opcode table -/

theorem decodeTableWord_eq_some {nbits w : Nat} {i : Instr} (h : decodeTableWord nbits w = some i) :
    decodeWord (tableSet (tableWord nbits w)) (tableWord nbits w) = .ok i := by
  have hb := decode_bytesOfWord (tableSet (tableWord nbits w)) (tableWord nbits w) []
  rw [List.append_nil] at hb
  simp only [decodeTableWord, hb] at h
  cases hd : decodeWord (tableSet (tableWord nbits w)) (tableWord nbits w) with
  | ok j => simpa [hd, Except.map] using h
  | error e => simp [hd, Except.map] at h

end Sys2Proof

namespace Sys2Proof.Machine

open Sys2Proof

/-! ### Fetching -/

theorem fetch_of_decode_ok {s : State} {bytes rest : List Byte} {i : Instr}
    (hb : Memory.getBytes s.code s.pc 4 = some bytes) (hd : decode s.env.instrSet bytes = .ok (i, rest)) :
    s.fetch = .ok i := by
  simp [State.fetch, hb, hd]

theorem fetch_of_decode_error {s : State} {bytes : List Byte} {e : DecodeError}
    (hb : Memory.getBytes s.code s.pc 4 = some bytes) (hd : decode s.env.instrSet bytes = .error e) :
    s.fetch = .error (refusalOfDecode e) := by
  simp [State.fetch, hb, hd]

theorem fetch_of_no_bytes {s : State} (hb : Memory.getBytes s.code s.pc 4 = none) :
    s.fetch = .error .noInstruction := by
  simp [State.fetch, hb]

theorem runInstr_of_fetch_ok {s : State} {i : Instr} (h : s.fetch = .ok i) : runInstr s = exec i s := by
  simp [runInstr, h]

theorem runInstr_of_fetch_error {s : State} {r : Refusal} (h : s.fetch = .error r) : runInstr s = .refused r := by
  simp [runInstr, h]

/-- A step that executes is refused where its fetch is: what is fetched does not depend on the agenda. -/
theorem step_of_fetch_error {s : State} {r : Refusal} (ha : s.Executes) (h : s.fetch = .error r) :
    step s = .refused r := by
  obtain ha | ⟨more, ha⟩ := ha
  · rw [step_nil ha, runInstr_of_fetch_error h]
  · rw [step_execute ha, runInstr_of_fetch_error (s := { s with agenda := more }) h]

/-- The four bytes of a word, supplied at the pc, are fetched as the word. -/
theorem getBytes_setBytes_bytesOfWord (m : Memory) (a : Word) (set : InstrSet) (w : Word) :
    Memory.getBytes (Memory.setBytes m a (bytesOfWord set w)) a 4 = some (bytesOfWord set w) := by
  obtain ⟨b0, b1, b2, b3, hb, -⟩ := wordOfBytes_bytesOfWord set w
  rw [hb, Memory.getBytes_setBytes_four]

/-! ### Records -/

theorem execRecord_eq_access {r : SysRegAccess} (h : r.selectsSDCR = true) (s : State) :
    execRecord r s = accessOf r.dir r.rt s := by
  simp only [execRecord, h, accessOf]
  rfl

/-! ### Assembler lines -/

/-- The line of 30_encoding.md R68, in all its spellings, is the record of SDCR. -/
theorem asmLine_instr (set : InstrSet) (dir : Dir) (c : Option (BitVec 4)) (q : Option Qualifier) (h1 h2 : Bool)
    (rt : BitVec 4) :
    AsmLine.instr set ⟨dir, c, q, [.coproc 15#4, .imm h1 0#3, .gpr rt, .creg 1#4, .creg 3#4, .imm h2 1#3]⟩ =
      some (if condOk (c.getD condAlways) then recordInstr set (sdcrRecord dir (c.getD condAlways) rt)
        else .error .notSDCR) := rfl

/-- With `<opc2>` omitted the record has `opc2` 0, and is not SDCR's. -/
theorem asmLine_instr_no_opc2 (set : InstrSet) (dir : Dir) (c : Option (BitVec 4)) (q : Option Qualifier) (h1 : Bool)
    (rt : BitVec 4) :
    AsmLine.instr set ⟨dir, c, q, [.coproc 15#4, .imm h1 0#3, .gpr rt, .creg 1#4, .creg 3#4]⟩ =
      some (.error .notSDCR) := by
  simp [AsmLine.instr, AsmLine.record, recordInstr, SysRegAccess.selectsSDCR, sdcrOpc2]

theorem Instr.rtOk_of_wf {i : Instr} (hw : i.wf = true) : rtOk i.rt = true :=
  rtOk_iff_rtIndex.2 (Instr.wf_rtIndex hw)

/-- With a condition, the line is the instruction of the set with the direction, condition and register written. -/
theorem asmLine_instr_of_condOk {c : Option (BitVec 4)} {rt : BitVec 4} (hc : condOk (c.getD condAlways) = true)
    (hrt : rtOk rt = true) (set : InstrSet) (dir : Dir) (q : Option Qualifier) (h1 h2 : Bool) :
    AsmLine.instr set ⟨dir, c, q, [.coproc 15#4, .imm h1 0#3, .gpr rt, .creg 1#4, .creg 3#4, .imm h2 1#3]⟩ =
      some (.ok (instrOf set dir (c.getD condAlways) rt)) := by
  rw [asmLine_instr, if_pos hc]
  exact congrArg some (recordInstr_eq_ok.2 ⟨rfl, hrt, rfl⟩)

/-- The condition that `asmOf` writes, or omits, is the instruction's own. -/
theorem instrOf_asmOf_cond {i : Instr} (hw : i.wf = true) :
    condOk ((asmOf i).cond.getD condAlways) = true ∧
      instrOf i.instrSet i.dir ((asmOf i).cond.getD condAlways) i.rt = i := by
  cases i with
  | mrcA32 cond rt =>
    simp only [Instr.wf, Bool.and_eq_true] at hw
    exact ⟨hw.1, rfl⟩
  | mcrA32 cond rt =>
    simp only [Instr.wf, Bool.and_eq_true] at hw
    exact ⟨hw.1, rfl⟩
  | mrcT32 rt => exact ⟨rfl, rfl⟩
  | mcrT32 rt => exact ⟨rfl, rfl⟩

/-- A T32 instruction is known by its direction and register: no condition stands in it (30_encoding.md R64). -/
theorem instrOf_t32 {i : Instr} (h : i.instrSet = .t32) (cond : BitVec 4) : instrOf .t32 i.dir cond i.rt = i := by
  cases i with
  | mrcA32 cond rt => cases h
  | mcrA32 cond rt => cases h
  | mrcT32 rt => rfl
  | mcrT32 rt => rfl

end Sys2Proof.Machine
end

section
/-!
CERTIFICATE. Decoding and encoding (30_encoding.md R63 to R65, R67, R71; 20_memory.md R53).
-/

namespace Sys2Proof.Machine

open Sys2Proof

/-- Settles O8: the decoder reads the layout that the encoder writes. -/
theorem decodeOfEncodeIsTheInstruction : Obligations.DecodeOfEncodeIsTheInstruction := by
  intro i rest hw
  rw [encode, decode_bytesOfWord, decodeWord_encodeWord hw]
  rfl

/-- Settles O9: a record has one word in the layout. -/
theorem encodeOfDecodeIsTheBytes : Obligations.EncodeOfDecodeIsTheBytes := by
  intro set bytes rest i h
  obtain ⟨w, hd, hbytes⟩ := decode_eq_ok h
  obtain ⟨rfl, hw⟩ := encodeWord_of_decodeWord hd
  exact ⟨decodeWord_wf hd, rfl, by rw [hbytes, encode, hw]⟩

/-- Settles O10: a mask and its match say that the word holds SDCR's record, in one direction or the other. -/
theorem decoderIsTheMatchAndMaskTable : Obligations.DecoderIsTheMatchAndMaskTable := by
  have hcases : ∀ w : Word, HoldsSDCR w .read ∨ HoldsSDCR w .write ∨ ∀ dir, ¬ HoldsSDCR w dir := by
    intro w
    by_cases hr : HoldsSDCR w .read
    · exact .inl hr
    · by_cases hw : HoldsSDCR w .write
      · exact .inr (.inl hw)
      · exact .inr (.inr fun dir => by cases dir <;> assumption)
  refine ⟨fun w => ?_, fun w => ?_⟩
  · have hmr : w &&& 0x0FFF0FFF#32 = 0x0E110F33#32 ↔ _ := mask_eq_sdcrMatch w .read
    have hmw : w &&& 0x0FFF0FFF#32 = 0x0E010F33#32 ↔ _ := mask_eq_sdcrMatch w .write
    obtain hr | hw | hn := hcases w
    · simp [decodeWord_of_holdsSDCR _ hr, topBitsOk_a32, hmr.2 hr, instrOf]
    · simp [decodeWord_of_holdsSDCR _ hw, topBitsOk_a32, hmw.2 hw, instrOf]
    · simp [decodeWord_of_not_holdsSDCR _ hn, mt hmr.1 (hn _), mt hmw.1 (hn _)]
  · have hmr : w &&& 0xFFFF0FFF#32 = 0xEE110F33#32 ↔ _ := mask_eq_sdcrMatch_t32 w .read
    have hmw : w &&& 0xFFFF0FFF#32 = 0xEE010F33#32 ↔ _ := mask_eq_sdcrMatch_t32 w .write
    by_cases htop : w.extractLsb' 28 4 = condAlways
    · obtain hr | hw | hn := hcases w
      · simp [decodeWord_of_holdsSDCR _ hr, topBitsOk_t32.2 htop, hmr.2 ⟨htop, hr⟩, instrOf]
      · simp [decodeWord_of_holdsSDCR _ hw, topBitsOk_t32.2 htop, hmw.2 ⟨htop, hw⟩, instrOf]
      · simp [decodeWord_of_not_holdsSDCR _ hn, mt hmr.1 (fun h => hn _ h.2), mt hmw.1 (fun h => hn _ h.2)]
    · have hd : decodeWord .t32 w = .error .notSDCR :=
        decodeWord_of_topBits (by simpa [topBitsOk] using htop)
      simp [hd, mt hmr.1 (fun h => htop h.1), mt hmw.1 (fun h => htop h.1)]

/-- Settles O11: each word is decoded by computation. -/
theorem writtenOutWordsDecode : Obligations.WrittenOutWordsDecode :=
  ⟨rfl, rfl, rfl, rfl, rfl, rfl, rfl, rfl, rfl⟩

/-- Settles O5: what is fetched does not depend on the agenda. -/
theorem stepRunsTheDecodedInstruction : Obligations.StepRunsTheDecodedInstruction := by
  intro s bytes rest i hb hd
  refine ⟨fun ha => ?_, fun more ha => ?_⟩
  · rw [step_nil ha, runInstr_of_fetch_ok (fetch_of_decode_ok hb hd)]
  · rw [step_execute ha, runInstr_of_fetch_ok (fetch_of_decode_ok (s := { s with agenda := more }) hb hd)]

/-- Settles O6: the fetch is refused, and with it the step. -/
theorem stepRefusesWhatDoesNotDecode : Obligations.StepRefusesWhatDoesNotDecode := by
  intro s ha
  refine ⟨fun hb => step_of_fetch_error ha (fetch_of_no_bytes hb), fun bytes hb => ⟨fun hd => ?_, fun hd => ?_⟩⟩
  · exact step_of_fetch_error ha (fetch_of_decode_error hb hd)
  · exact step_of_fetch_error ha (fetch_of_decode_error hb hd)

/-- Settles O7: the bytes supplied are read back, and decode as the table word does. -/
theorem withFetchWordRunsTheTableWord : Obligations.WithFetchWordRunsTheTableWord := by
  intro s nbits w i h
  have hd := decodeTableWord_eq_some h
  have hbytes : decode (tableSet (tableWord nbits w)) (bytesOfWord (tableSet (tableWord nbits w)) (tableWord nbits w)) =
      .ok (i, []) := by
    simpa [hd, Except.map] using decode_bytesOfWord (tableSet (tableWord nbits w)) (tableWord nbits w) []
  refine ⟨?_, (encodeWord_of_decodeWord hd).1.symm⟩
  rw [step_execute rfl]
  exact runInstr_of_fetch_ok (fetch_of_decode_ok (getBytes_setBytes_bytesOfWord _ _ _ _) hbytes)

/-- Settles O12: record and instruction do the access of their direction. -/
theorem recordThatSelectsSDCRIsTheInstruction : Obligations.RecordThatSelectsSDCRIsTheInstruction := by
  refine ⟨fun r => ?_, fun r i s hsel hw hrt hdir => ?_, fun r s hsel hrt => ?_, fun r s hsel => ?_⟩
  · simp [SysRegAccess.selectsSDCR, sdcrCoproc, sdcrOpc1, sdcrCRn, sdcrCRm, sdcrOpc2, and_assoc]
  · rw [execRecord_eq_access hsel, exec_eq_access hw, hrt, hdir]
  · rw [execRecord_eq_access hsel, hrt, accessOf_rt_fifteen]
  · simp [execRecord, hsel]

/-- Settles O13: every spelling is SDCR's record with the condition written, or always. -/
theorem assemblerLineIsTheInstruction : Obligations.AssemblerLineIsTheInstruction := by
  intro i hw
  have hrt := Instr.rtOk_of_wf hw
  obtain ⟨hc, hi⟩ := instrOf_asmOf_cond hw
  have hline : ∀ (q : Option Qualifier) (h1 h2 : Bool), AsmLine.instr i.instrSet
      ⟨i.dir, (asmOf i).cond, q, [.coproc 15#4, .imm h1 0#3, .gpr i.rt, .creg 1#4, .creg 3#4, .imm h2 1#3]⟩ =
        some (.ok i) := by
    intro q h1 h2
    rw [asmLine_instr_of_condOk hc hrt, hi]
  refine ⟨fun q h1 h2 => ⟨hline q h1 h2, fun hset => ?_, fun hset c hcne => ?_, ?_⟩,
    fun h1 => asmLine_instr_no_opc2 _ _ _ _ _ _, hline none false false⟩
  · refine (asmLine_instr_of_condOk (c := none) rfl hrt .a32 i.dir q h1 h2).trans ?_
    cases i.dir <;> rfl
  · have hcok : condOk c = true := by simpa [condOk] using hcne
    refine (asmLine_instr_of_condOk (c := some c) hcok hrt .t32 i.dir q h1 h2).trans ?_
    rw [instrOf_t32 hset]
  · exact asmLine_instr _ _ _ _ _ _ _

end Sys2Proof.Machine
end

section
/-!
SUPPORT. The masks bit by bit, and what reads and writes do to the fields and to the bits of SPD (10_state.md R21, R33,
R35 to R39).
-/

namespace Sys2Proof.Machine

open Sys2Proof

/-! ### The write mask -/

theorem getLsbD_ite_zero (b : Bool) (v : Word) (n : Nat) :
    (if b then v else 0#32).getLsbD n = (v.getLsbD n && b) := by
  cases b <;> simp

theorem getLsbD_twoPow_of_lt {i : Nat} (hi : i < 32) (n : Nat) : (BitVec.twoPow 32 i).getLsbD n = (n == i) := by
  simp [BitVec.getLsbD_twoPow, hi, Bool.beq_eq_decide_eq, eq_comm]

/-- The constants of 10_state.md R35 as single bits. -/
theorem wmask_eq_twoPow (cfg : Config) :
    wmask cfg =
      (BitVec.twoPow 32 14 ||| BitVec.twoPow 32 15 ||| BitVec.twoPow 32 20)
        ||| (if cfg.featPMU85 then BitVec.twoPow 32 23 else 0#32)
        ||| (if cfg.featPMUv3 && cfg.pmuExtDebugIf then BitVec.twoPow 32 21 else 0#32)
        ||| (if cfg.featTrace84 then BitVec.twoPow 32 18 ||| BitVec.twoPow 32 19 else 0#32)
        ||| (if cfg.featPMUv3 then BitVec.twoPow 32 17 else 0#32) := rfl

theorem wmask_getLsbD (cfg : Config) (n : Nat) :
    (wmask cfg).getLsbD n =
      (n == 14 || n == 15 || n == 20 || (n == 23 && cfg.featPMU85) ||
        (n == 21 && cfg.featPMUv3 && cfg.pmuExtDebugIf) || ((n == 18 || n == 19) && cfg.featTrace84) ||
        (n == 17 && cfg.featPMUv3)) := by
  rw [wmask_eq_twoPow]
  simp only [BitVec.getLsbD_or, getLsbD_ite_zero]
  simp (disch := decide) only [getLsbD_twoPow_of_lt, Bool.and_assoc]

theorem fixedRes0_and_ite {v : Word} (h : fixedRes0 &&& v = 0#32) (b : Bool) :
    fixedRes0 &&& (if b then v else 0#32) = 0#32 := by
  cases b
  · exact BitVec.and_zero
  · exact h

/-- No field is in a bit that is RES0 in every configuration. -/
theorem fixedRes0_and_wmask (cfg : Config) : fixedRes0 &&& wmask cfg = 0#32 := by
  simp only [wmask, BitVec.and_or_distrib_left]
  rw [fixedRes0_and_ite (by decide), fixedRes0_and_ite (by decide), fixedRes0_and_ite (by decide),
    fixedRes0_and_ite (by decide)]
  decide

theorem and_eq_self_of_and_not_eq_zero {v m : Word} (h : v &&& ~~~ m = 0#32) : v &&& m = v := by
  have hsplit : v &&& (m ||| ~~~ m) = v := by rw [BitVec.or_not_self, BitVec.and_allOnes]
  rwa [BitVec.and_or_distrib_left, h, BitVec.or_zero] at hsplit

/-- A value that is 0 in the hardwired bits is written as it is. -/
theorem writeValue_of_hardwiredZero {cfg : Config} {v : Word} (h : hardwiredZero cfg v = true) : writeValue cfg v = v :=
  and_eq_self_of_and_not_eq_zero (hardwiredZero_iff.1 h)

/-- A write takes the bits of every field as they are. -/
theorem writeValue_getLsbD {cfg : Config} {n : Nat} (h : (wmask cfg).getLsbD n = true) (v : Word) :
    (writeValue cfg v).getLsbD n = v.getLsbD n := by
  simp [writeValue, stored, h]

/-! ### SPD -/

theorem spd_eq_iff {v w : Word} : spd v = spd w ↔ v.getLsbD 14 = w.getLsbD 14 ∧ v.getLsbD 15 = w.getLsbD 15 := by
  have hbit : ∀ (u : Word) (n : Nat), n < 2 → (spd u).getLsbD n = u.getLsbD (14 + n) := by
    intro u n hn
    simp [spd, hn]
  constructor
  · intro h
    exact ⟨by rw [← hbit v 0 (by omega), h, hbit w 0 (by omega)], by rw [← hbit v 1 (by omega), h, hbit w 1 (by omega)]⟩
  · rintro ⟨h14, h15⟩
    apply BitVec.eq_of_getLsbD_eq
    intro n hn
    rw [hbit v n hn, hbit w n hn]
    obtain rfl | rfl : n = 0 ∨ n = 1 := by omega
    · exact h14
    · exact h15

/-- SPD exists in every configuration. -/
theorem spd_writeValue (cfg : Config) (v : Word) : spd (writeValue cfg v) = spd v := by
  have h14 : (wmask cfg).getLsbD 14 = true := by simp [wmask_getLsbD]
  have h15 : (wmask cfg).getLsbD 15 = true := by simp [wmask_getLsbD]
  exact spd_eq_iff.2 ⟨writeValue_getLsbD h14 v, writeValue_getLsbD h15 v⟩

theorem withSpd_and_not (w : Word) (b : BitVec 2) : withSpd w b &&& ~~~ 0x0000C000#32 = w &&& ~~~ 0x0000C000#32 := by
  have hb : b.zeroExtend 32 <<< 14 &&& ~~~ 0x0000C000#32 = 0#32 := by
    revert b
    decide
  rw [withSpd, BitVec.and_or_distrib_right, hb, BitVec.or_zero, BitVec.and_assoc, BitVec.and_self]

theorem spd_withSpd (w : Word) (b : BitVec 2) : spd (withSpd w b) = b := by
  have hb : (b.zeroExtend 32 <<< 14).extractLsb' 14 2 = b := by
    revert b
    decide
  have hm : (~~~ 0x0000C000#32 : Word).extractLsb' 14 2 = 0#2 := by decide
  rw [spd, withSpd, BitVec.extractLsb'_or, BitVec.extractLsb'_and, hm, hb, BitVec.and_zero, BitVec.zero_or]

/-! ### Reads -/

theorem readSDCR_of_spd_ne {s : State} (h : spd s.sdcr ≠ 0b01#2) : s.readSDCR.1 = s.sdcr := by
  simp [State.readSDCR, h]

/-- Where a read-back is fixed, or none is needed, the value read is a function of the stored one and the
configuration. -/
theorem readSDCR_of_readback {s : State} {b : BitVec 2} (h : spd s.sdcr = 0b01#2)
    (hb : s.cfg.spdReservedReadback = some b) : s.readSDCR.1 = withSpd s.sdcr b := by
  simp [State.readSDCR, h, hb]

/-- Only bits [15:14] of a read can differ from the stored value (10_state.md R39). -/
theorem readSDCR_and_not (s : State) : s.readSDCR.1 &&& ~~~ 0x0000C000#32 = s.sdcr &&& ~~~ 0x0000C000#32 := by
  obtain ⟨-, h⟩ | ⟨b, -, -, h⟩ | ⟨-, -, h⟩ := s.readSDCR_cases
  · rw [h]
  · rw [h, withSpd_and_not]
  · rw [h, withSpd_and_not]

theorem spd_readSDCR_of_readback {s : State} {b : BitVec 2} (h : spd s.sdcr = 0b01#2)
    (hb : s.cfg.spdReservedReadback = some b) : spd s.readSDCR.1 = b := by
  rw [readSDCR_of_readback h hb, spd_withSpd]

/-- Two states with the same SDCR and configuration read the same value, unless the read draws. -/
theorem readSDCR_congr {s t : State} (hsdcr : t.sdcr = s.sdcr) (hcfg : t.cfg = s.cfg)
    (h : spd s.sdcr ≠ 0b01#2 ∨ s.cfg.spdReservedReadback ≠ none) : t.readSDCR.1 = s.readSDCR.1 := by
  by_cases hspd : spd s.sdcr = 0b01#2
  · obtain ⟨b, hb⟩ := Option.ne_none_iff_exists'.1 (h.resolve_left (not_not_intro hspd))
    rw [readSDCR_of_readback hspd hb, readSDCR_of_readback (by rw [hsdcr, hspd]) (by rw [hcfg, hb]), hsdcr]
  · rw [readSDCR_of_spd_ne hspd, readSDCR_of_spd_ne (by rwa [hsdcr]), hsdcr]

end Sys2Proof.Machine
end

section
/-!
SUPPORT. What a well-formed instruction does where the check is settled: condition failed, a read at EL3, a write at EL3
(40_sdcr_access.md R80, R81).
-/

namespace Sys2Proof.Machine

open Sys2Proof

theorem accessOutcome_of_condition_failed {env : Env} (hc : env.conditionPassed = false) (dir : Dir) (cfg : Config) :
    accessOutcome dir cfg env = .conditionFailed := by
  simp [accessOutcome, conditionPassed, hc]

theorem accessOutcome_at_el3 {env : Env} (hc : env.conditionPassed = true) (hel : env.el = .el3) (dir : Dir)
    (cfg : Config) : accessOutcome dir cfg env = el3Outcome dir env := by
  simp [accessOutcome, conditionPassed, hc, hel]

theorem el3Outcome_write_of_not_blocked {env : Env} (h : ¬ WriteBlocked env) : el3Outcome .write env = .completed :=
  if_neg h

theorem exec_of_condition_failed {i : Instr} {s : State} (hw : i.wf = true) (hc : s.env.conditionPassed = false) :
    exec i s = .next s.advancePc := by
  obtain ⟨k, hk⟩ := Instr.wf_rtIndex hw
  rw [exec_eq_finishAccess s hw hk, accessOutcome_of_condition_failed hc]
  rfl

theorem exec_read_at_el3 {i : Instr} {k : Fin 15} {s : State} (hw : i.wf = true) (hd : i.dir = .read)
    (hk : i.rt.toNat = k.val) (hc : s.env.conditionPassed = true) (hel : s.env.el = .el3) :
    exec i s = .next (readTransfer k s).advancePc := by
  rw [exec_eq_finishAccess s hw (rtIndex_of_val hk), accessOutcome_at_el3 hc hel, transferOf, hd]
  rfl

theorem exec_write_at_el3 {i : Instr} {k : Fin 15} {s : State} (hw : i.wf = true) (hd : i.dir = .write)
    (hk : i.rt.toNat = k.val) (hc : s.env.conditionPassed = true) (hel : s.env.el = .el3) (hb : ¬ WriteBlocked s.env) :
    exec i s = .next (writeTransfer k s).advancePc := by
  rw [exec_eq_finishAccess s hw (rtIndex_of_val hk), accessOutcome_at_el3 hc hel, transferOf, hd,
    el3Outcome_write_of_not_blocked hb]
  rfl

/-- A read's next state is the old one with its register and the pc set, and a count of draws. -/
theorem readTransfer_advancePc_eq (k : Fin 15) (s : State) :
    (readTransfer k s).advancePc =
      { s with
        x := s.x.set k ((readTransfer k s).advancePc.getReg k), pc := s.pc + 4#32
        draws := (readTransfer k s).advancePc.draws } := by
  obtain ⟨n, hn⟩ := readTransfer_eq k s
  rw [State.advancePc_getReg, readTransfer_getReg_self, hn]
  rfl

/-- The condition bits and the register of each form. -/
theorem form_cond_rt {cond rt : BitVec 4} {i : Instr} (hcond : cond ≠ 0b1111#4)
    (hi : i = .mrcA32 cond rt ∨ i = .mcrA32 cond rt ∨ i = .mrcT32 rt ∨ i = .mcrT32 rt) :
    condOk i.toRecord.cond = true ∧ i.rt = rt := by
  have hc : condOk cond = true := by simpa [condOk] using hcond
  obtain rfl | rfl | rfl | rfl := hi
  · exact ⟨hc, rfl⟩
  · exact ⟨hc, rfl⟩
  · exact ⟨rfl, rfl⟩
  · exact ⟨rfl, rfl⟩

/-- Each form with a condition and an `Rt` that are not 15 is well-formed. -/
theorem form_wf {cond rt : BitVec 4} {i : Instr} (hcond : cond ≠ 0b1111#4) (hrt : rt ≠ 15#4)
    (hi : i = .mrcA32 cond rt ∨ i = .mcrA32 cond rt ∨ i = .mrcT32 rt ∨ i = .mcrT32 rt) : i.wf = true := by
  obtain ⟨hc, hr⟩ := form_cond_rt hcond hi
  simpa [Instr.wf_eq, hc, hr, rtOk] using hrt

theorem rt_ne_fifteen {rt : BitVec 4} {k : Fin 15} (h : rt.toNat = k.val) : rt ≠ 15#4 := by
  intro h15
  rw [h15] at h
  exact absurd k.isLt (by rw [← h]; decide)

end Sys2Proof.Machine
end

section
/-!
CERTIFICATE. What MRC and MCR do, and what a reset does (10_state.md R33, R35 to R39, R45; 20_memory.md R56, R57;
30_encoding.md R63, R66, R67; 40_sdcr_access.md R80, R81; 70_reset_and_hazards.md R140, R142).
-/

namespace Sys2Proof.Machine

open Sys2Proof

/-- Settles O1. -/
theorem resetStateMeetsTheInvariant : Obligations.ResetStateMeetsTheInvariant := by
  unfold Obligations.ResetStateMeetsTheInvariant
  decide

/-- Settles O2: what the reset draws is in the stored bits, and no field is among them where the PE resets into EL3
using AArch32. -/
theorem resetStepReplacesSDCROnly : Obligations.ResetStepReplacesSDCROnly := by
  intro s rest ha
  obtain ⟨v, n, hr⟩ := State.applyReset_cases { s with agenda := rest }
  refine ⟨_, (step_event ha).trans (congrArg _ hr), fun h3 h32 => ⟨?_, fun hm => ?_⟩, resetDrawMask_stored _ _, ?_, ?_,
    ?_, rfl, rfl, rfl, rfl, rfl, rfl⟩
  · change v &&& resetDrawMask s.cfg &&& wmask s.cfg = 0#32
    rw [BitVec.and_assoc, resetDrawMask_fields h3 h32, BitVec.and_zero]
  · simp [resetDrawMask, h3, h32, hm]
  · exact fun h3 => resetLevel_of_haveEL3 h3
  · intro h3 h2
    simp [resetLevel, h3, h2]
  · intro h3 h2
    simp [resetLevel, h3, h2]

/-- Settles O14. -/
theorem mrcAtEL3ReadsSDCRIntoRt : Obligations.MrcAtEL3ReadsSDCRIntoRt := by
  intro s cond rt k i hcond hk hi hc hel
  have hw : i.wf = true := form_wf hcond (rt_ne_fifteen hk) (hi.elim .inl fun h => .inr (.inr (.inl h)))
  have hform : i.dir = .read ∧ i.rt = rt := by obtain rfl | rfl := hi <;> exact ⟨rfl, rfl⟩
  obtain ⟨hd, rfl⟩ := hform
  refine ⟨_, exec_read_at_el3 hw hd hk hc hel, ?_⟩
  simp only [State.advancePc_getReg, readTransfer_getReg_self]
  refine ⟨readSDCR_of_spd_ne, readSDCR_and_not s, fun hspd b hb => spd_readSDCR_of_readback hspd hb,
    fun j hj => readTransfer_getReg_of_ne s hj, ?_⟩
  simp

/-- Settles O15. -/
theorem mcrAtEL3WritesRtIntoSDCR : Obligations.McrAtEL3WritesRtIntoSDCR := by
  intro s cond rt k i hcond hk hi hc hel hb
  have hw : i.wf = true := form_wf hcond (rt_ne_fifteen hk) (hi.elim (.inr ∘ .inl) fun h => .inr (.inr (.inr h)))
  have hform : i.dir = .write ∧ i.rt = rt := by obtain rfl | rfl := hi <;> exact ⟨rfl, rfl⟩
  obtain ⟨hd, rfl⟩ := hform
  exact ⟨_, exec_write_at_el3 hw hd hk hc hel hb, rfl, rfl, rfl, rfl, rfl, rfl, rfl, rfl, rfl⟩

/-- Settles O16. -/
theorem failedConditionOnlyAdvancesPc : Obligations.FailedConditionOnlyAdvancesPc :=
  fun _ _ _ _ hcond hrt hi hc => exec_of_condition_failed (form_wf hcond hrt hi) hc

/-- Settles O17: the stored bits hold every field, and nothing that is hardwired. -/
theorem writeReplacesEveryFieldAtOnce : Obligations.WriteReplacesEveryFieldAtOnce := by
  refine ⟨fun s i k hw hd hk hc hel hb => ?_, fun s rest ha => ?_⟩
  · exact ⟨_, exec_write_at_el3 hw hd hk hc hel hb, rfl, fun n hn => writeValue_getLsbD hn _, spd_writeValue _ _,
      writeValue_hardwired _ _⟩
  · obtain ⟨v, n, hr⟩ := State.applyReset_cases { s with agenda := rest }
    exact ⟨_, (step_event ha).trans (congrArg _ hr), resetDrawMask_stored _ _⟩

/-- Settles O18: the first read leaves SDCR and the configuration, so the second reads the same. -/
theorem twoReadsReturnTheStoredValue : Obligations.TwoReadsReturnTheStoredValue := by
  intro s i j k m hwi hwj hdi hdj hki hkj hc hel
  refine ⟨_, _, exec_read_at_el3 hwi hdi hki hc hel, exec_read_at_el3 hwj hdj hkj (by simp [hc]) (by simp [hel]), ?_⟩
  simp only [State.advancePc_getReg, readTransfer_getReg_self]
  have hsdcr : (readTransfer k s).advancePc.sdcr = s.sdcr := by simp
  have hcfg : (readTransfer k s).advancePc.cfg = s.cfg := by simp
  refine ⟨readSDCR_of_spd_ne, fun hspd => ⟨readSDCR_and_not s, fun b hb => spd_readSDCR_of_readback hspd hb⟩,
    readSDCR_congr hsdcr hcfg, ?_, ?_, ?_⟩
  · rw [readSDCR_and_not, readSDCR_and_not, hsdcr]
  · simpa using readTransfer_advancePc_eq k s
  · simpa using readTransfer_advancePc_eq m (readTransfer k s).advancePc

/-- Settles O19: by the case of `exec_next_cases`. -/
theorem execFrame : Obligations.ExecFrame := by
  intro i s t h
  obtain ⟨hcfg, henv, hcode, hagenda, -⟩ := exec_frame h
  obtain ⟨hreg, hread, hwrite⟩ : (∀ j : Fin 15, i.dir = .write ∨ i.rt.toNat ≠ j.val → t.getReg j = s.getReg j) ∧
      (i.dir = .read → t.sdcr = s.sdcr ∧ t.unsynced = s.unsynced) ∧ (i.dir = .write → t.draws = s.draws) := by
    obtain ⟨-, rfl⟩ | ⟨-, -, k, hk, ⟨hd, rfl⟩ | ⟨hd, -, rfl⟩⟩ := exec_next_cases h
    · exact ⟨fun _ _ => rfl, fun _ => ⟨rfl, rfl⟩, fun _ => rfl⟩
    · refine ⟨fun j hj => readTransfer_getReg_of_ne s ?_, fun _ => by simp, fun hw => by simp [hd] at hw⟩
      rintro rfl
      exact hj.elim (by simp [hd]) (fun hne => hne (rtIndex_eq_some.1 hk))
    · exact ⟨fun _ _ => rfl, fun hr => by simp [hd] at hr, fun _ => rfl⟩
  exact ⟨hreg, hread, hwrite, fun a => by rw [hcode], hcfg, henv, hcode, hagenda⟩

/-- Settles O20. -/
theorem pcAdvancesByFourModulo : Obligations.PcAdvancesByFourModulo := by
  intro i s t h
  obtain ⟨-, -, -, -, hpc⟩ := exec_frame h
  exact ⟨hpc, by rw [hpc, BitVec.toNat_add]; rfl⟩

/-- Settles O21: the read is of the value written, whose SPD is the register's. -/
theorem readAfterWriteReturnsTheWrite : Obligations.ReadAfterWriteReturnsTheWrite := by
  intro s i j k m e x' p hwi hdi hki hwj hdj hkj hc hel hb hc' hel'
  refine ⟨_, _, exec_write_at_el3 hwi hdi hki hc hel hb, exec_read_at_el3 hwj hdj hkj hc' hel', ?_⟩
  simp only [State.advancePc_getReg, readTransfer_getReg_self]
  have hspd := spd_writeValue s.cfg (s.getReg k)
  refine ⟨fun h => readSDCR_of_spd_ne ?_, readSDCR_and_not _, fun h b hb => spd_readSDCR_of_readback ?_ hb⟩
  · exact fun h' => h (hspd.symm.trans h')
  · exact hspd.trans h

/-- Settles O22: the value read is SDCR's, which the invariant keeps 0 in the hardwired bits. -/
theorem writingBackTheReadValueKeepsSDCR : Obligations.WritingBackTheReadValueKeepsSDCR := by
  intro s i j k hinv hwi hdi hki hwj hdj hkj hc hel hb hspd
  refine ⟨_, _, exec_read_at_el3 hwi hdi hki hc hel,
    exec_write_at_el3 hwj hdj hkj (by simp [hc]) (by simp [hel]) (by simpa using hb), ?_⟩
  simp only [writeTransfer, State.advancePc_sdcr, State.writeSDCR_sdcr, State.advancePc_getReg, readTransfer_getReg_self,
    State.advancePc_cfg, readTransfer_cfg]
  rw [readSDCR_of_spd_ne hspd, writeValue_of_hardwiredZero hinv.hardwiredZero_sdcr]

/-- Settles O29: a form with another `Rt` is well-formed, and refused only as `absentEL`. -/
theorem rtFifteenIsRefusedByName : Obligations.RtFifteenIsRefusedByName := by
  intro s cond rt i hcond hi
  constructor
  · intro h
    refine Decidable.byContradiction fun hrt => ?_
    have hw := form_wf hcond hrt hi
    obtain ⟨-, ho⟩ | ⟨hnw, -⟩ := exec_refused h
    · cases (accessOutcome_refused ho).1
    · rw [hw] at hnw
      cases hnw
  · rintro rfl
    obtain ⟨hc, hr⟩ := form_cond_rt hcond hi
    rw [exec_eq_guarded, if_pos hc, hr, accessOf_rt_fifteen]

/-- Settles O30: the condition bits are checked first. -/
theorem condFifteenIsNotThisInstruction : Obligations.CondFifteenIsNotThisInstruction := by
  intro s rt
  refine ⟨fun dir => ?_, rfl, rfl, rfl, rfl⟩
  cases dir <;> exact ⟨rfl, rfl, rfl, rfl⟩

/-- Settles O31. -/
theorem belowEL3NothingButThePcChanges : Obligations.BelowEL3NothingButThePcChanges :=
  fun _ _ _ hel h => exec_next_below_el3 hel h

/-- Settles O33: of the events only a reset changes SDCR, of the instructions only a completed write. -/
theorem onlyResetAndMcrAtEL3ChangeSDCR : Obligations.OnlyResetAndMcrAtEL3ChangeSDCR := by
  intro s t h hne
  obtain ⟨e, rest, ha, rfl⟩ | ⟨i, rest, ha, hf, hx⟩ := step_next h
  · left
    by_cases he : e = .reset
    · exact ⟨rest, he ▸ ha⟩
    · exact absurd (applyEvent_sdcr he) hne
  · right
    have hexec : s.Executes := ha.elim (fun ha => .inr ⟨rest, ha⟩) fun ha => .inl ha.1
    obtain ⟨-, rfl⟩ | ⟨hc, hel, k, -, ⟨-, rfl⟩ | ⟨hd, hb, -⟩⟩ := exec_next_cases hx
    · exact absurd rfl hne
    · exact absurd (by simp) hne
    · exact ⟨hexec, i, hf, hd, hel, hc, hb⟩

/-- Settles O35. -/
theorem contextSynchronizationMakesTheWriteVisible : Obligations.ContextSynchronizationMakesTheWriteVisible := by
  refine ⟨fun s t i k hd hk hc h => ?_, fun s rest ha => step_event ha, fun s hs v => ?_⟩
  · obtain ⟨hf, -⟩ | ⟨-, -, m, hm, ⟨hr, -⟩ | ⟨-, -, rfl⟩⟩ := exec_next_cases h
    · rw [hc] at hf
      cases hf
    · rw [hd] at hr
      cases hr
    · obtain rfl : k = m := Option.some.inj ((rtIndex_of_val hk).symm.trans hm)
      exact ⟨rfl, rfl⟩
  · have hun : s.unsynced = [] := by simpa [State.synced] using hs
    simp [State.observable, hun]

/-- Settles O36: the laws of the one operation that each event is. -/
theorem environmentEventsChangeTheirOwnPart : Obligations.EnvironmentEventsChangeTheirOwnPart := by
  refine ⟨fun s e rest ha => step_event ha, fun s k v rest ha => ?_, fun s v rest ha => step_event ha,
    fun s a b rest ha => ?_⟩
  · exact ⟨_, step_event ha, State.getReg_setReg_self _ _ _, fun j hj => State.getReg_setReg_of_ne _ _ hj, rfl⟩
  · exact ⟨_, step_event ha, Memory.get_set_self _ _ _, fun n hn => Memory.get_set_of_ne _ _ hn, rfl⟩

/-- Settles O37: the first step that stops, and what it can be. -/
theorem runEndsAtTheFirstTerminalOutcome : Obligations.RunEndsAtTheFirstTerminalOutcome := by
  intro k s
  refine ⟨fun f h => ?_, fun r h => ?_⟩
  · obtain ⟨j, hj, t, hrun, hstep, hlong⟩ := run_stops (k := k) (s := s) (by simp [h])
    rw [h] at hstep hlong
    obtain ⟨ha, i, hf, hw, ho⟩ := step_fault hstep
    obtain ⟨hc, hel⟩ := accessOutcome_raised ho
    exact ⟨j, t, i, hj, hrun, hstep, hlong, ha, hf, hw, hc, hel⟩
  · obtain ⟨j, hj, t, hrun, hstep, hlong⟩ := run_stops (k := k) (s := s) (by simp [h])
    rw [h] at hstep hlong
    obtain ⟨ha, hwhy⟩ := step_refused hstep
    exact ⟨j, t, hj, hrun, hstep, hlong, ha, hwhy⟩

/-- Settles O39, bit by bit. -/
theorem writeMaskHoldsTheFieldsOfTheConfiguration : Obligations.WriteMaskHoldsTheFieldsOfTheConfiguration := by
  refine ⟨wmask_getLsbD, fun cfg => ⟨rfl, ?_⟩, by decide⟩
  rw [res0mask, BitVec.not_not, fixedRes0_and_wmask]

end Sys2Proof.Machine
end

section
/-!
SUPPORT. The check at EL1 (40_sdcr_access.md R82, R88; 92_eei_decisions.md D8): each arm's condition agrees with the
source's, so the outcome is the table's or the refusal; when it is the refusal; and what it depends on.
-/

namespace Sys2Proof.Machine

open Sys2Proof

/-! ### Conditions that may have no value -/

/-- A condition, where it has a value, has that of the proposition. -/
def Decides (o : Option Bool) (p : Prop) : Prop := ∀ b, o = some b → (b = true ↔ p)

theorem decides_some (b : Bool) : Decides (some b) (b = true) := by
  rintro _ ⟨⟩
  exact Iff.rfl

theorem decides_known {b : Bool} {p : Prop} (h : b = true ↔ p) (present : Bool) : Decides (known present b) p := by
  intro b' hb
  cases present
  · cases hb
  · cases hb
    exact h

theorem decides_notKnown {o : Option Bool} {p : Prop} (h : Decides o p) : Decides (notKnown o) (¬ p) := by
  intro b hb
  cases o with
  | none => cases hb
  | some c =>
    cases hb
    rw [← h c rfl]
    cases c <;> simp

/-- A part without a value settles nothing, but a false part settles the conjunction. -/
theorem decides_andKnown {o o' : Option Bool} {p q : Prop} (h : Decides o p) (h' : Decides o' q) :
    Decides (andKnown o o') (p ∧ q) := by
  intro b hb
  match o, o' with
  | some false, _ =>
    cases hb
    simp [← h false rfl]
  | some true, some b' =>
    have hb' : b = b' := by cases b' <;> cases hb <;> rfl
    simp [← h true rfl, ← h' b' rfl, hb']
  | none, some false =>
    cases hb
    simp [← h' false rfl]
  | some true, none | none, some true | none, none => cases hb

theorem elifArm_of_decides {c : Option Bool} {p : Prop} [Decidable p] {f g : Fault} {o : AccessOutcome}
    (hc : Decides c p) (ho : o = .raised g ∨ o = .refused .absentEL) :
    elifArm c (.raised f) o = .raised (if p then f else g) ∨ elifArm c (.raised f) o = .refused .absentEL := by
  match c with
  | none => exact .inr rfl
  | some true =>
    rw [if_pos ((hc true rfl).1 rfl)]
    exact .inl rfl
  | some false =>
    rw [if_neg (by simp [← hc false rfl])]
    exact ho

/-- R82 as the model has it, against R88's table. -/
theorem el1Outcome_eq_table_or_refused (cfg : Config) (env : Env) :
    el1Outcome cfg env = .raised (el1Table cfg env) ∨ el1Outcome cfg env = .refused .absentEL := by
  have el2a64 : Decides (notKnown (known cfg.haveEL2 env.el2AArch32)) (env.el2AArch32 = false) := by
    simpa using decides_notKnown (decides_known (b := env.el2AArch32) Iff.rfl cfg.haveEL2)
  have el3a64 : Decides (notKnown (known cfg.haveEL3 cfg.el3AArch32)) (cfg.el3AArch32 = false) := by
    simpa using decides_notKnown (decides_known (b := cfg.el3AArch32) Iff.rfl cfg.haveEL3)
  have ns : Decides (known cfg.haveEL3 (env.scrEL3NS == 0#1)) (env.scrEL3NS = 0#1) := decides_known beq_iff_eq _
  have arm1 := decides_andKnown (decides_some env.el2Enabled)
    (decides_andKnown el2a64 (decides_known (beq_iff_eq (a := env.hstrEL2T1) (b := 1#1)) cfg.haveEL2))
  have arm2 := decides_andKnown (decides_some env.el2Enabled)
    (decides_andKnown (decides_known (b := env.el2AArch32) Iff.rfl cfg.haveEL2)
      (decides_known (beq_iff_eq (a := env.hstrT1) (b := 1#1)) cfg.haveEL2))
  have arm3 := decides_andKnown el2a64
    (decides_andKnown ns (decides_known (beq_iff_eq (a := env.scrEL3EEL2) (b := 1#1)) cfg.haveEL3))
  have arm4 := decides_andKnown el3a64 ns
  exact elifArm_of_decides arm1 (elifArm_of_decides arm2 (elifArm_of_decides arm3 (elifArm_of_decides arm4 (.inl rfl))))

/-! ### Which level a trap goes to -/

theorem elifArm_raised {c : Option Bool} {f g : Fault} {o : AccessOutcome} (h : elifArm c (.raised f) o = .raised g) :
    (c = some true ∧ g = f) ∨ o = .raised g := by
  match c with
  | none => cases h
  | some true =>
    cases h
    exact .inl ⟨rfl, rfl⟩
  | some false => exact .inr h

theorem andKnown_eq_true {o o' : Option Bool} : andKnown o o' = some true ↔ o = some true ∧ o' = some true := by
  match o, o' with
  | some true, some true | some false, some _ | some false, none | some true, some false | some true, none
  | none, some true | none, some false | none, none => simp [andKnown]

theorem present_of_known {present b c : Bool} (h : known present b = some c) : present = true := by
  cases present
  · cases h
  · rfl

theorem present_of_notKnown {present b c : Bool} (h : notKnown (known present b) = some c) : present = true := by
  cases present
  · cases h
  · rfl

/-- Each arm's condition needs an input about the level its trap goes to. -/
theorem el1Outcome_target {cfg : Config} {env : Env} {f : Fault} (h : el1Outcome cfg env = .raised f) :
    (f.target = some .el2 → cfg.haveEL2 = true) ∧ (f.target = some .el3 → cfg.haveEL3 = true) := by
  unfold el1Outcome at h
  obtain ⟨hc, rfl⟩ | h := elifArm_raised h
  · simp only [andKnown_eq_true] at hc
    exact ⟨fun _ => present_of_notKnown hc.2.1, fun ht => by cases ht⟩
  obtain ⟨hc, rfl⟩ | h := elifArm_raised h
  · simp only [andKnown_eq_true] at hc
    exact ⟨fun _ => present_of_known hc.2.1, fun ht => by cases ht⟩
  obtain ⟨hc, rfl⟩ | h := elifArm_raised h
  · simp only [andKnown_eq_true] at hc
    exact ⟨fun _ => present_of_notKnown hc.1, fun ht => by cases ht⟩
  obtain ⟨hc, rfl⟩ | h := elifArm_raised h
  · simp only [andKnown_eq_true] at hc
    exact ⟨fun ht => (by cases ht), fun _ => present_of_notKnown hc.1⟩
  · cases h
    exact ⟨fun ht => (by cases ht), fun ht => (by cases ht)⟩

/-! ### When the check is refused -/

theorem andKnown_some (b c : Bool) : andKnown (some b) (some c) = some (b && c) := by
  cases b <;> cases c <;> rfl

theorem elifArm_some_refused {b : Bool} {f : Fault} {o : AccessOutcome}
    (h : elifArm (some b) (.raised f) o = .refused .absentEL) : b = false ∧ o = .refused .absentEL := by
  cases b with
  | true => cases h
  | false => exact ⟨rfl, h⟩

/-- Where the check is refused, what an absent level would have to say matters: EL2's for arm 1, EL2's for arm 3, or
EL3's for arms 3 and 4. -/
theorem el1Outcome_refused {cfg : Config} {env : Env} (h : el1Outcome cfg env = .refused .absentEL) :
    (cfg.haveEL2 = false ∧ env.el2Enabled = true) ∨
    (cfg.haveEL2 = false ∧ env.el2Enabled = false ∧ env.scrEL3NS = 0#1 ∧ env.scrEL3EEL2 = 1#1) ∨
    (cfg.haveEL3 = false ∧ ¬ Arm1 env ∧ ¬ Arm2 env) := by
  have present : ∀ b, known true b = some b := fun _ => rfl
  have negated : ∀ b, notKnown (some b) = some !b := fun _ => rfl
  unfold el1Outcome at h
  cases h2 : cfg.haveEL2 with
  | false =>
    cases hen : env.el2Enabled with
    | true => exact .inl ⟨rfl, rfl⟩
    | false =>
      cases h3 : cfg.haveEL3 with
      | false => exact .inr (.inr ⟨rfl, by simp [Arm1, hen], by simp [Arm2, hen]⟩)
      | true =>
        simp only [hen, h3, present, negated, andKnown_some] at h
        obtain ⟨-, h⟩ := elifArm_some_refused h
        obtain ⟨-, h⟩ := elifArm_some_refused h
        cases harm3 : env.scrEL3NS == 0#1 && env.scrEL3EEL2 == 1#1 with
        | true =>
          simp only [Bool.and_eq_true, beq_iff_eq] at harm3
          exact .inr (.inl ⟨rfl, rfl, harm3⟩)
        | false =>
          rw [h2, harm3] at h
          obtain ⟨-, h⟩ := elifArm_some_refused (b := false) h
          cases (elifArm_some_refused h).2
  | true =>
    simp only [h2, present, negated, andKnown_some] at h
    obtain ⟨harm1, h⟩ := elifArm_some_refused h
    obtain ⟨harm2, h⟩ := elifArm_some_refused h
    cases h3 : cfg.haveEL3 with
    | true =>
      simp only [h3, present, negated, andKnown_some] at h
      obtain ⟨-, h⟩ := elifArm_some_refused h
      cases (elifArm_some_refused h).2
    | false =>
      refine .inr (.inr ⟨rfl, ?_, ?_⟩)
      · rintro ⟨hen, h32, ht1⟩
        simp [hen, h32, ht1] at harm1
      · rintro ⟨hen, h32, ht1⟩
        simp [hen, h32, ht1] at harm2

theorem el1Outcome_of_present {cfg : Config} {env : Env} (h2 : cfg.haveEL2 = true) (h3 : cfg.haveEL3 = true) :
    el1Outcome cfg env = .raised (el1Table cfg env) := by
  refine (el1Outcome_eq_table_or_refused cfg env).resolve_right fun h => ?_
  obtain ⟨hn, -⟩ | ⟨hn, -⟩ | ⟨hn, -⟩ := el1Outcome_refused h
  · simp [h2] at hn
  · simp [h2] at hn
  · simp [h3] at hn

/-! ### The table, outcome by outcome -/

section Table

variable {cfg : Config} {env : Env}

theorem not_arm2_of_arm1 (h : Arm1 env) : ¬ Arm2 env := by
  rintro ⟨-, h32, -⟩
  simp [h.2.1] at h32

/-- The rows of R88, each with the rows above it passed over. -/
theorem el1Table_cases (cfg : Config) (env : Env) :
    (Arm1 env ∧ el1Table cfg env = .systemAccessTrap .el2 0x03) ∨
    (¬ Arm1 env ∧ Arm2 env ∧ el1Table cfg env = .hypTrap 0x03) ∨
    (¬ Arm1 env ∧ ¬ Arm2 env ∧ Arm3 env ∧ el1Table cfg env = .systemAccessTrap .el2 0x03) ∨
    (¬ Arm1 env ∧ ¬ Arm2 env ∧ ¬ Arm3 env ∧ Arm4 cfg env ∧ el1Table cfg env = .systemAccessTrap .el3 0x03) ∨
    (¬ Arm1 env ∧ ¬ Arm2 env ∧ ¬ Arm3 env ∧ ¬ Arm4 cfg env ∧ el1Table cfg env = .undefined) := by
  unfold el1Table
  by_cases h1 : Arm1 env
  · exact .inl ⟨h1, if_pos h1⟩
  · rw [if_neg h1]
    by_cases h2 : Arm2 env
    · exact .inr (.inl ⟨h1, h2, if_pos h2⟩)
    · rw [if_neg h2]
      by_cases h3 : Arm3 env
      · exact .inr (.inr (.inl ⟨h1, h2, h3, if_pos h3⟩))
      · rw [if_neg h3]
        by_cases h4 : Arm4 cfg env
        · exact .inr (.inr (.inr (.inl ⟨h1, h2, h3, h4, if_pos h4⟩)))
        · exact .inr (.inr (.inr (.inr ⟨h1, h2, h3, h4, if_neg h4⟩)))

theorem el1Table_eq_undefined :
    el1Table cfg env = .undefined ↔ ¬ Arm1 env ∧ ¬ Arm2 env ∧ ¬ Arm3 env ∧ ¬ Arm4 cfg env := by
  obtain ⟨h1, ht⟩ | ⟨h1, h2, ht⟩ | ⟨h1, h2, h3, ht⟩ | ⟨h1, h2, h3, h4, ht⟩ | ⟨h1, h2, h3, h4, ht⟩ :=
    el1Table_cases cfg env <;> grind

theorem el1Table_eq_trap_el2 :
    el1Table cfg env = .systemAccessTrap .el2 0x03 ↔ Arm1 env ∨ (¬ Arm2 env ∧ Arm3 env) := by
  obtain ⟨h1, ht⟩ | ⟨h1, h2, ht⟩ | ⟨h1, h2, h3, ht⟩ | ⟨h1, h2, h3, h4, ht⟩ | ⟨h1, h2, h3, h4, ht⟩ :=
    el1Table_cases cfg env <;> grind

theorem el1Table_eq_hypTrap : el1Table cfg env = .hypTrap 0x03 ↔ Arm2 env := by
  obtain ⟨h1, ht⟩ | ⟨h1, h2, ht⟩ | ⟨h1, h2, h3, ht⟩ | ⟨h1, h2, h3, h4, ht⟩ | ⟨h1, h2, h3, h4, ht⟩ :=
    el1Table_cases cfg env <;> grind [not_arm2_of_arm1]

theorem el1Table_eq_trap_el3 :
    el1Table cfg env = .systemAccessTrap .el3 0x03 ↔ ¬ Arm1 env ∧ ¬ Arm2 env ∧ ¬ Arm3 env ∧ Arm4 cfg env := by
  obtain ⟨h1, ht⟩ | ⟨h1, h2, ht⟩ | ⟨h1, h2, h3, ht⟩ | ⟨h1, h2, h3, h4, ht⟩ | ⟨h1, h2, h3, h4, ht⟩ :=
    el1Table_cases cfg env <;> grind

theorem el1Table_target (cfg : Config) (env : Env) :
    el1Table cfg env = .undefined ∨ (el1Table cfg env).target = some .el2 ∨ (el1Table cfg env).target = some .el3 := by
  obtain ⟨-, ht⟩ | ⟨-, -, ht⟩ | ⟨-, -, -, ht⟩ | ⟨-, -, -, -, ht⟩ | ⟨-, -, -, -, ht⟩ :=
    el1Table_cases cfg env <;> simp [ht, Fault.target]

end Table

/-! ### What the check depends on -/

theorem sameKnownInputs_of_absent_el2 {cfg : Config} (h2 : cfg.haveEL2 = false) (env : Env) (a : Bool) (h h' : Bit) :
    SameKnownInputs cfg cfg env { env with el2AArch32 := a, hstrEL2T1 := h, hstrT1 := h' } :=
  ⟨rfl, rfl, rfl, fun h => by simp [h2] at h, fun _ => ⟨rfl, rfl, rfl⟩⟩

theorem sameKnownInputs_of_absent_el3 {cfg : Config} (h3 : cfg.haveEL3 = false) (env : Env) (a : Bool) (n e : Bit) :
    SameKnownInputs cfg { cfg with el3AArch32 := a } env { env with scrEL3NS := n, scrEL3EEL2 := e } :=
  ⟨rfl, rfl, rfl, fun _ => ⟨rfl, rfl, rfl⟩, fun h => by simp [h3] at h⟩

theorem known_congr {p p' b b' : Bool} (hp : p = p') (hb : p = true → b = b') : known p b = known p' b' := by
  subst hp
  cases p
  · rfl
  · rw [hb rfl]

/-- Inputs about absent levels do not matter (92_eei_decisions.md D8). -/
theorem el1Outcome_congr {cfg cfg' : Config} {env env' : Env} (h : SameKnownInputs cfg cfg' env env') :
    el1Outcome cfg env = el1Outcome cfg' env' := by
  have ha32 := known_congr h.haveEL2 fun h2 => (h.aboutEL2 h2).1
  have ht1 := known_congr (b := env.hstrEL2T1 == 1#1) h.haveEL2 fun h2 => by rw [(h.aboutEL2 h2).2.1]
  have ht1' := known_congr (b := env.hstrT1 == 1#1) h.haveEL2 fun h2 => by rw [(h.aboutEL2 h2).2.2]
  have hns := known_congr (b := env.scrEL3NS == 0#1) h.haveEL3 fun h3 => by rw [(h.aboutEL3 h3).1]
  have heel2 := known_congr (b := env.scrEL3EEL2 == 1#1) h.haveEL3 fun h3 => by rw [(h.aboutEL3 h3).2.1]
  have h3a32 := known_congr h.haveEL3 fun h3 => (h.aboutEL3 h3).2.2
  simp only [el1Outcome, ha32, ht1, ht1', hns, heel2, h3a32, h.el2Enabled]

/-- Where the check is not refused, neither does the table depend on them. -/
theorem el1Table_congr_of_raised {cfg cfg' : Config} {env env' : Env} (h : SameKnownInputs cfg cfg' env env')
    (ho : el1Outcome cfg env = .raised (el1Table cfg env)) : el1Table cfg env = el1Table cfg' env' := by
  have ho' := el1Outcome_eq_table_or_refused cfg' env'
  rw [← el1Outcome_congr h, ho] at ho'
  simpa using ho'

/-- A refusal is no guess: the inputs about the absent level can be set so that the table has two outcomes. -/
theorem el1Table_differs_of_refused {cfg : Config} {env : Env} (h : el1Outcome cfg env = .refused .absentEL) :
    ∃ (cfg₁ cfg₂ : Config) (env₁ env₂ : Env), SameKnownInputs cfg cfg₁ env env₁ ∧ SameKnownInputs cfg cfg₂ env env₂ ∧
      el1Table cfg₁ env₁ ≠ el1Table cfg₂ env₂ := by
  obtain ⟨h2, hen⟩ | ⟨h2, hen, hns, heel2⟩ | ⟨h3, harm1, harm2⟩ := el1Outcome_refused h
  · refine ⟨_, _, _, _, sameKnownInputs_of_absent_el2 h2 env false 1#1 0#1,
      sameKnownInputs_of_absent_el2 h2 env true 0#1 0#1, fun heq => ?_⟩
    have htrap := heq.symm.trans (el1Table_eq_trap_el2.2 (.inl ⟨hen, rfl, rfl⟩))
    simp [el1Table_eq_trap_el2, Arm1, Arm3] at htrap
  · refine ⟨_, _, _, _, sameKnownInputs_of_absent_el2 h2 env false 0#1 0#1,
      sameKnownInputs_of_absent_el2 h2 env true 0#1 0#1, fun heq => ?_⟩
    have htrap := heq.symm.trans (el1Table_eq_trap_el2.2 (.inr ⟨by simp [Arm2], rfl, hns, heel2⟩))
    simp [el1Table_eq_trap_el2, Arm1, Arm3] at htrap
  · refine ⟨_, _, _, _, sameKnownInputs_of_absent_el3 h3 env false 0#1 1#1,
      sameKnownInputs_of_absent_el3 h3 env false 1#1 1#1, fun heq => ?_⟩
    have hundef := heq.trans (el1Table_eq_undefined.2 ⟨harm1, harm2, by simp [Arm3], by simp [Arm4]⟩)
    simp [el1Table_eq_undefined, Arm4] at hundef

/-! ### Instructions below EL3 -/

theorem accessOutcome_at_el1 {env : Env} (hc : env.conditionPassed = true) (hel : env.el = .el1) (dir : Dir)
    (cfg : Config) : accessOutcome dir cfg env = el1Outcome cfg env := by
  simp [accessOutcome, conditionPassed, hc, hel]

theorem exec_at_el0_el2 {i : Instr} {s : State} (hw : i.wf = true) (hc : s.env.conditionPassed = true)
    (hel : s.env.el = .el0 ∨ s.env.el = .el2) : exec i s = .fault .undefined := by
  obtain ⟨k, hk⟩ := Instr.wf_rtIndex hw
  have ho : accessOutcome i.dir s.cfg s.env = .raised .undefined := by
    obtain hel | hel := hel <;> simp [accessOutcome, conditionPassed, hc, hel]
  rw [exec_eq_finishAccess s hw hk, ho]
  rfl

theorem exec_blocked_write {i : Instr} {s : State} (hw : i.wf = true) (hd : i.dir = .write)
    (hc : s.env.conditionPassed = true) (hel : s.env.el = .el3) (hb : WriteBlocked s.env) :
    exec i s = .fault .undefined := by
  obtain ⟨k, hk⟩ := Instr.wf_rtIndex hw
  have ho : accessOutcome i.dir s.cfg s.env = .raised .undefined := by
    rw [accessOutcome_at_el3 hc hel, hd]
    exact if_pos hb
  rw [exec_eq_finishAccess s hw hk, ho]
  rfl

/-- At EL1 every form ends as the check does: as the table says, or refused. -/
theorem exec_at_el1 {i : Instr} {s : State} (hw : i.wf = true) (hc : s.env.conditionPassed = true)
    (hel : s.env.el = .el1) :
    (el1Outcome s.cfg s.env = .raised (el1Table s.cfg s.env) ∧ exec i s = .fault (el1Table s.cfg s.env)) ∨
    (el1Outcome s.cfg s.env = .refused .absentEL ∧ exec i s = .refused .absentEL) := by
  obtain ⟨k, hk⟩ := Instr.wf_rtIndex hw
  rw [exec_eq_finishAccess s hw hk, accessOutcome_at_el1 hc hel]
  obtain ho | ho := el1Outcome_eq_table_or_refused s.cfg s.env
  · exact .inl ⟨ho, by rw [ho]; rfl⟩
  · exact .inr ⟨ho, by rw [ho]; rfl⟩

theorem exec_at_el1_of_present {i : Instr} {s : State} (hw : i.wf = true) (hc : s.env.conditionPassed = true)
    (hel : s.env.el = .el1) (h2 : s.cfg.haveEL2 = true) (h3 : s.cfg.haveEL3 = true) :
    exec i s = .fault (el1Table s.cfg s.env) := by
  obtain ⟨-, hx⟩ | ⟨ho, -⟩ := exec_at_el1 hw hc hel
  · exact hx
  · rw [el1Outcome_of_present h2 h3] at ho
    cases ho

/-- At EL1 the outcome is the check's, so that equal checks give equal outcomes, of an instruction that is not
well-formed too. -/
theorem exec_at_el1_congr {i : Instr} {s s' : State} (hc : s.env.conditionPassed = true) (hel : s.env.el = .el1)
    (hc' : s'.env.conditionPassed = true) (hel' : s'.env.el = .el1)
    (ho : el1Outcome s'.cfg s'.env = el1Outcome s.cfg s.env) : exec i s' = exec i s := by
  cases hw : i.wf with
  | false =>
    obtain ⟨r, hr⟩ := exec_of_not_wf_const hw
    rw [hr, hr]
  | true =>
    obtain ⟨k, hk⟩ := Instr.wf_rtIndex hw
    rw [exec_eq_finishAccess s hw hk, exec_eq_finishAccess s' hw hk, accessOutcome_at_el1 hc hel,
      accessOutcome_at_el1 hc' hel', ho]
    obtain ⟨f, hf⟩ | hf := el1Outcome_stops s.cfg s.env <;> rw [hf] <;> rfl

/-- Where an exception comes from, condition passed: `Undefined` at EL0 and EL2, the table at EL1, and a blocked write at
EL3. -/
theorem exec_fault_cases {i : Instr} {s : State} {f : Fault} (h : exec i s = .fault f) :
    ((s.env.el = .el0 ∨ s.env.el = .el2) ∧ f = .undefined) ∨
    (s.env.el = .el1 ∧ el1Table s.cfg s.env = f) ∨
    (s.env.el = .el3 ∧ f = .undefined ∧ i.dir = .write ∧ WriteBlocked s.env) := by
  obtain ⟨hw, ho⟩ := exec_fault h
  obtain ⟨hc, hblocked⟩ := accessOutcome_raised ho
  cases hel : s.env.el with
  | el0 =>
    rw [exec_at_el0_el2 hw hc (.inl hel)] at h
    cases h
    exact .inl ⟨.inl rfl, rfl⟩
  | el1 =>
    refine .inr (.inl ⟨rfl, ?_⟩)
    obtain ⟨-, hx⟩ | ⟨-, hx⟩ := exec_at_el1 hw hc hel
    · rw [hx] at h
      cases h
      rfl
    · rw [hx] at h
      cases h
  | el2 =>
    rw [exec_at_el0_el2 hw hc (.inr hel)] at h
    cases h
    exact .inl ⟨.inr rfl, rfl⟩
  | el3 =>
    obtain ⟨hd, hb⟩ := hblocked hel
    rw [exec_blocked_write hw hd hc hel hb] at h
    cases h
    exact .inr (.inr ⟨rfl, rfl, hd, hb⟩)

/-! ### Other states with the same outcome -/

/-- What an instruction reads of the state to decide its outcome is the configuration and the inputs: two states with the
same check have the same outcome, up to what a change `g` of the state makes of a next state. -/
theorem exec_commutes {i : Instr} {s s' : State} {g : State → State}
    (ho : accessOutcome i.dir s'.cfg s'.env = accessOutcome i.dir s.cfg s.env)
    (hfailed : s'.advancePc = g s.advancePc)
    (htransfer : ∀ k, accessOutcome i.dir s.cfg s.env = .completed →
      (transferOf i k s').advancePc = g (transferOf i k s).advancePc) :
    exec i s' = match exec i s with
      | .next t => .next (g t)
      | .fault f => .fault f
      | .refused r => .refused r := by
  cases hw : i.wf with
  | false =>
    obtain ⟨r, hr⟩ := exec_of_not_wf_const hw
    rw [hr, hr]
  | true =>
    obtain ⟨k, hk⟩ := Instr.wf_rtIndex hw
    rw [exec_eq_finishAccess s hw hk, exec_eq_finishAccess s' hw hk, ho]
    cases hs : accessOutcome i.dir s.cfg s.env with
    | completed => exact congrArg Host.Outcome.next (htransfer k hs)
    | conditionFailed => exact congrArg Host.Outcome.next hfailed
    | raised f => rfl
    | refused r => rfl

/-- No transfer reads whether SDCR is mapped to `MDCR_EL3` (92_eei_decisions.md D5). -/
theorem transferOf_mappedToMDCREL3 (i : Instr) (k : Fin 15) (s : State) (b : Bool) :
    transferOf i k { s with cfg := { s.cfg with mappedToMDCREL3 := b } } =
      { transferOf i k s with cfg := { s.cfg with mappedToMDCREL3 := b } } := by
  unfold transferOf
  cases i.dir with
  | write => rfl
  | read =>
    by_cases hspd : spd s.sdcr = 0b01#2
    · cases hb : s.cfg.spdReservedReadback <;> simp [readTransfer, State.readSDCR, State.setReg, hspd, hb]
    · simp [readTransfer, State.readSDCR, State.setReg, hspd]

end Sys2Proof.Machine
end

section
/-!
CERTIFICATE. Checks, traps and privilege (40_sdcr_access.md R80 to R82, R88; 60_exceptions.md R100 to R103, R110;
92_eei_decisions.md D8).
-/

namespace Sys2Proof.Machine

open Sys2Proof

/-- Settles O23: where exceptions come from, and the table's last row. -/
theorem undefinedExactlyWhereTheSourceSaysSo : Obligations.UndefinedExactlyWhereTheSourceSaysSo := by
  refine ⟨fun i s hw hc => ⟨fun h => ?_, fun h => ?_, fun h2 h3 hel h1 h2' h3' h4 => ?_⟩, rfl, rfl⟩
  · obtain ⟨hel, -⟩ | ⟨hel, ht⟩ | ⟨hel, -, hd, hb⟩ := exec_fault_cases h
    · exact hel.elim .inl fun hel => .inr (.inl hel)
    · exact .inr (.inr (.inl ⟨hel, el1Table_eq_undefined.1 ht⟩))
    · exact .inr (.inr (.inr ⟨hel, hd, hb⟩))
  · obtain hel | hel | ⟨hel, hd, hb⟩ := h
    · exact exec_at_el0_el2 hw hc (.inl hel)
    · exact exec_at_el0_el2 hw hc (.inr hel)
    · exact exec_blocked_write hw hd hc hel hb
  · rw [exec_at_el1_of_present hw hc hel h2 h3, el1Table_eq_undefined.2 ⟨h1, h2', h3', h4⟩]

/-- Settles O24: where exceptions come from, and the table's other rows. -/
theorem eachTrapExactlyOnItsArms : Obligations.EachTrapExactlyOnItsArms := by
  have htable : ∀ {i : Instr} {s : State} {f : Fault}, f ≠ .undefined → exec i s = .fault f →
      s.env.el = .el1 ∧ el1Table s.cfg s.env = f := by
    intro i s f hf h
    obtain ⟨-, hu⟩ | ht | ⟨-, hu, -⟩ := exec_fault_cases h
    · exact absurd hu hf
    · exact ht
    · exact absurd hu hf
  refine ⟨fun i s hw hc => ⟨fun h => ?_, fun h => ?_, fun h => ?_, fun h2 h3 hel => ?_⟩, rfl, rfl, rfl, rfl,
    fun _ => rfl, fun _ => rfl, rfl⟩
  · obtain ⟨hel, ht⟩ := htable (by decide) h
    exact ⟨hel, el1Table_eq_trap_el2.1 ht⟩
  · obtain ⟨hel, ht⟩ := htable (by decide) h
    exact ⟨hel, el1Table_eq_hypTrap.1 ht⟩
  · obtain ⟨hel, ht⟩ := htable (by decide) h
    exact ⟨hel, el1Table_eq_trap_el3.1 ht⟩
  · rw [exec_at_el1_of_present hw hc hel h2 h3]
    refine ⟨fun h => ?_, fun h => ?_, fun h1 h2 h3 h4 => ?_⟩
    · rw [el1Table_eq_trap_el2.2 h]
    · rw [el1Table_eq_hypTrap.2 h]
    · rw [el1Table_eq_trap_el3.2 ⟨h1, h2, h3, h4⟩]

/-- Settles O25. -/
theorem outcomeAtEL1IsTheDecisionTable : Obligations.OutcomeAtEL1IsTheDecisionTable := by
  intro i s hw hc hel
  simp only [and_comm (a := s.env.scrEL3NS = 0#1) (b := s.cfg.el3AArch32 = false)]
  obtain ⟨-, hx⟩ | ⟨ho, hx⟩ := exec_at_el1 hw hc hel
  · exact .inl hx
  · refine .inr ⟨hx, fun ⟨h2, h3⟩ => ?_⟩
    rw [el1Outcome_of_present h2 h3] at ho
    cases ho

/-- Settles O26: the check depends on the known inputs alone, so two outcomes of the table leave it no answer; and a
refused check has two. -/
theorem absentLevelIsRefusedNeverGuessed : Obligations.AbsentLevelIsRefusedNeverGuessed := by
  intro i s hw hc hel
  have hx := exec_at_el1 hw hc hel
  refine ⟨hx.imp And.right And.right, fun f hf => ?_, fun hr => ?_, ?_⟩
  · obtain ⟨-, ho⟩ := exec_fault hf
    rw [accessOutcome_at_el1 hc hel] at ho
    exact el1Outcome_target ho
  · obtain ⟨-, hx⟩ | ⟨ho, -⟩ := hx
    · rw [hx] at hr
      cases hr
    · exact el1Table_differs_of_refused ho
  · rintro ⟨cfg, cfg', env, env', hsame, hsame', hne⟩
    obtain ⟨ho, -⟩ | ⟨-, hx⟩ := hx
    · exact absurd ((el1Table_congr_of_raised hsame ho).symm.trans (el1Table_congr_of_raised hsame' ho)) hne
    · exact hx

/-- Settles O27. -/
theorem inputsOfAnAbsentLevelDoNotMatter : Obligations.InputsOfAnAbsentLevelDoNotMatter := by
  intro i s hc hel
  refine ⟨fun h2 a h h' => ?_, fun h3 a n e => ?_⟩
  · exact exec_at_el1_congr hc hel hc hel (el1Outcome_congr (sameKnownInputs_of_absent_el2 h2 s.env a h h')).symm
  · exact exec_at_el1_congr hc hel hc hel (el1Outcome_congr (sameKnownInputs_of_absent_el3 h3 s.env a n e)).symm

/-- Settles O28. -/
theorem onlyEL3CompletesAnAccess : Obligations.OnlyEL3CompletesAnAccess := by
  intro i s hw hc
  refine ⟨⟨fun ⟨t, h⟩ => ?_, fun ⟨hel, hb⟩ => ?_⟩, fun hel => exec_at_el0_el2 hw hc (.inl hel), fun hel h2 h3 => ?_,
    fun hel => exec_at_el0_el2 hw hc (.inr hel)⟩
  · obtain ⟨hf, -⟩ | ⟨-, hel, k, -, ⟨hd, -⟩ | ⟨-, hb, -⟩⟩ := exec_next_cases h
    · rw [hc] at hf
      cases hf
    · exact ⟨hel, fun hw => by simp [hd] at hw⟩
    · exact ⟨hel, fun _ => hb⟩
  · obtain ⟨k, hk⟩ := Instr.wf_rtIndex hw
    cases hd : i.dir with
    | read => exact ⟨_, exec_read_at_el3 hw hd (rtIndex_eq_some.1 hk) hc hel⟩
    | write => exact ⟨_, exec_write_at_el3 hw hd (rtIndex_eq_some.1 hk) hc hel (hb hd)⟩
  · exact ⟨_, exec_at_el1_of_present hw hc hel h2 h3, el1Table_target s.cfg s.env⟩

/-- Settles O32: no transfer happens below EL3. -/
theorem belowEL3NothingIsLearntOfSDCR : Obligations.BelowEL3NothingIsLearntOfSDCR := by
  intro i s v us hel
  refine exec_commutes (g := fun t => { t with sdcr := v, unsynced := us }) rfl rfl fun k ho => ?_
  exact absurd (accessOutcome_completed ho).2.1 hel

/-- Settles O38: neither the check nor a transfer reads the mapping. -/
theorem mappingToMDCRChangesNoInstruction : Obligations.MappingToMDCRChangesNoInstruction := by
  refine ⟨fun s => ⟨fun h => by simp [State.mdcrEL3Low, h], fun h => by simp [State.mdcrEL3Low, h]⟩, fun i s b => ?_⟩
  refine exec_commutes (g := fun t => { t with cfg := { s.cfg with mappedToMDCREL3 := b } }) rfl rfl fun k _ => ?_
  rw [transferOf_mappedToMDCREL3]
  rfl

end Sys2Proof.Machine
end

section
/-!
SUPPORT. The control outputs (60_exceptions.md part 3): bits and fields, each output as a function of the fields that
exist, and its value where they are 0.
-/

namespace Sys2Proof.Machine

open Sys2Proof

/-! ### Bits and fields -/

theorem bit_eq_one {w : Word} {n : Nat} : w.extractLsb' n 1 = 1#1 ↔ w.getLsbD n = true := by
  simp [BitVec.eq_of_getLsbD_eq_iff]

theorem bit_eq_zero {w : Word} {n : Nat} : w.extractLsb' n 1 = 0#1 ↔ w.getLsbD n = false := by
  simp [BitVec.eq_of_getLsbD_eq_iff]

theorem bit_eq_iff {v w : Word} {n : Nat} : v.extractLsb' n 1 = w.extractLsb' n 1 ↔ v.getLsbD n = w.getLsbD n := by
  simp [BitVec.eq_of_getLsbD_eq_iff]

/-- Values that agree under a mask agree in its bits. -/
theorem getLsbD_eq_of_and_eq {v w m : Word} (h : v &&& m = w &&& m) {n : Nat} (hn : m.getLsbD n = true) :
    v.getLsbD n = w.getLsbD n := by
  have hbit := congrArg (BitVec.getLsbD · n) h
  simpa [hn] using hbit

theorem bit_ne_one_iff {b : Bit} : b ≠ 1#1 ↔ b = 0#1 := by
  revert b
  decide

/-- Two values of SDCR with the same fields, of those that the configuration has (10_state.md R21). -/
structure SameFields (cfg : Config) (v w : Word) : Prop where
  sccd : cfg.featPMU85 = true → sccd v = sccd w
  epmad : cfg.featPMUv3 = true → cfg.pmuExtDebugIf = true → epmad v = epmad w
  edad : edad v = edad w
  ttrf : cfg.featTrace84 = true → ttrf v = ttrf w
  ste : cfg.featTrace84 = true → ste v = ste w
  spme : cfg.featPMUv3 = true → spme v = spme w
  spd : spd v = spd w

/-- The write mask covers every field. -/
theorem sameFields_of_wmask {cfg : Config} {v w : Word} (h : v &&& wmask cfg = w &&& wmask cfg) :
    SameFields cfg v w where
  sccd h85 := bit_eq_iff.2 (getLsbD_eq_of_and_eq h (by simp [wmask_getLsbD, h85]))
  epmad hpmu hext := bit_eq_iff.2 (getLsbD_eq_of_and_eq h (by simp [wmask_getLsbD, hpmu, hext]))
  edad := bit_eq_iff.2 (getLsbD_eq_of_and_eq h (by simp [wmask_getLsbD]))
  ttrf ht := bit_eq_iff.2 (getLsbD_eq_of_and_eq h (by simp [wmask_getLsbD, ht]))
  ste ht := bit_eq_iff.2 (getLsbD_eq_of_and_eq h (by simp [wmask_getLsbD, ht]))
  spme hpmu := bit_eq_iff.2 (getLsbD_eq_of_and_eq h (by simp [wmask_getLsbD, hpmu]))
  spd := spd_eq_iff.2
    ⟨getLsbD_eq_of_and_eq h (by simp [wmask_getLsbD]), getLsbD_eq_of_and_eq h (by simp [wmask_getLsbD])⟩

/-! ### SCCD -/

theorem pmccntrProhibited_iff {cfg : Config} {env : Env} {w : Word} :
    pmccntrProhibitedBySCCD cfg env w = true ↔ cfg.featPMU85 = true ∧ w.getLsbD 23 = true ∧ env.isSecure = true := by
  simp only [pmccntrProhibitedBySCCD, Bool.and_eq_true, beq_iff_eq, sccd, bit_eq_one, and_assoc]

theorem pmccntrProhibited_congr {cfg : Config} {v w : Word} (h : SameFields cfg v w) (env : Env) :
    pmccntrProhibitedBySCCD cfg env v = pmccntrProhibitedBySCCD cfg env w := by
  unfold pmccntrProhibitedBySCCD
  cases h85 : cfg.featPMU85 with
  | true => rw [h.sccd h85]
  | false => rfl

/-! ### EPMAD -/

theorem epmadDescription_eq_a {cfg : Config} (h84 : cfg.featDebug84 = true) (hpmu : cfg.featPMUv3 = true)
    (hext : cfg.pmuExtDebugIf = true) : epmadDescription cfg = .a := by
  simp [epmadDescription, h84, hpmu, hext]

theorem epmadDescription_eq_b {cfg : Config} (h84 : cfg.featDebug84 = false) (hpmu : cfg.featPMUv3 = true)
    (hext : cfg.pmuExtDebugIf = true) : epmadDescription cfg = .b := by
  simp [epmadDescription, h84, hpmu, hext]

theorem epmadDescription_eq_absent {cfg : Config} (h : cfg.featPMUv3 = false ∨ cfg.pmuExtDebugIf = false) :
    epmadDescription cfg = .absent := by
  obtain h | h := h <;> simp [epmadDescription, h]

/-- R113: a Secure access is not restricted. -/
theorem extPMUAccess_of_a {cfg : Config} (h : epmadDescription cfg = .a) (env : Env) (w : Word) (nonsecure : Bool) :
    extPMUAccessPermittedBySDCR cfg env w nonsecure = true ↔ (nonsecure = true → w.getLsbD 21 = false) := by
  cases nonsecure <;> simp [extPMUAccessPermittedBySDCR, h, epmad, bit_eq_zero]

/-- R114: the authentication interface can override. -/
theorem extPMUAccess_of_b {cfg : Config} (h : epmadDescription cfg = .b) (env : Env) (w : Word) (nonsecure : Bool) :
    extPMUAccessPermittedBySDCR cfg env w nonsecure = true ↔ w.getLsbD 21 = false ∨ env.authOverrideEPMAD = true := by
  simp [extPMUAccessPermittedBySDCR, h, epmad, bit_eq_zero]

/-- R115. -/
theorem extPMUAccess_of_absent {cfg : Config} (h : epmadDescription cfg = .absent) (env : Env) (w : Word)
    (nonsecure : Bool) : extPMUAccessPermittedBySDCR cfg env w nonsecure = true := by
  simp [extPMUAccessPermittedBySDCR, h]

theorem extPMUAccess_congr {cfg : Config} {v w : Word} (h : SameFields cfg v w) (env : Env) (nonsecure : Bool) :
    extPMUAccessPermittedBySDCR cfg env v nonsecure = extPMUAccessPermittedBySDCR cfg env w nonsecure := by
  by_cases hexists : cfg.featPMUv3 = true ∧ cfg.pmuExtDebugIf = true
  · rw [extPMUAccessPermittedBySDCR, h.epmad hexists.1 hexists.2, extPMUAccessPermittedBySDCR]
  · rw [Decidable.not_and_iff_not_or_not, Bool.not_eq_true, Bool.not_eq_true] at hexists
    have habsent := epmadDescription_eq_absent hexists
    rw [extPMUAccess_of_absent habsent, extPMUAccess_of_absent habsent]

/-! ### EDAD -/

theorem edadDescription_eq_c {cfg : Config} (h84 : cfg.featDebug84 = false) (h82 : cfg.featDebug82 = false) :
    edadDescription cfg = .c := by
  simp [edadDescription, h84, h82]

/-- In description (c) the implementation chooses whether `OSLAR_EL1` is named (R118, D23). -/
theorem edadCovers_iff_of_c {cfg : Config} (h : edadDescription cfg = .c) (target : DebugTarget) :
    edadCovers cfg target = true ↔
      target = .breakpoint ∨ target = .watchpoint ∨ (target = .oslar ∧ cfg.edadCoversOSLAR = true) := by
  cases target <;> simp [edadCovers, h]

/-- R118: the override frees every target that the row names. -/
theorem extDebugAccess_not_permitted_of_c {cfg : Config} (h : edadDescription cfg = .c) (env : Env) (w : Word)
    (target : DebugTarget) (nonsecure : Bool) :
    extDebugAccessPermittedBySDCR cfg env w target nonsecure = false ↔
      edad w = 1#1 ∧ edadCovers cfg target = true ∧ env.authOverrideEDAD = false := by
  simp [extDebugAccessPermittedBySDCR, h, and_assoc]

theorem extDebugAccess_congr {cfg : Config} {v w : Word} (h : SameFields cfg v w) (env : Env) (target : DebugTarget)
    (nonsecure : Bool) :
    extDebugAccessPermittedBySDCR cfg env v target nonsecure =
      extDebugAccessPermittedBySDCR cfg env w target nonsecure := by
  rw [extDebugAccessPermittedBySDCR, h.edad, extDebugAccessPermittedBySDCR]

/-! ### TTRF -/

theorem traceFilterTrapped_iff {cfg : Config} {env : Env} {w : Word} :
    traceFilterAccessTrappedBySDCR cfg env w = true ↔
      cfg.featTrace84 = true ∧ w.getLsbD 19 = true ∧ env.inMonitorMode = false := by
  simp only [traceFilterAccessTrappedBySDCR, Bool.and_eq_true, beq_iff_eq, ttrf, bit_eq_one, Bool.not_eq_true',
    and_assoc]

theorem traceFilterTrapped_congr {cfg : Config} {v w : Word} (h : SameFields cfg v w) (env : Env) :
    traceFilterAccessTrappedBySDCR cfg env v = traceFilterAccessTrappedBySDCR cfg env w := by
  unfold traceFilterAccessTrappedBySDCR
  cases ht : cfg.featTrace84 with
  | true => rw [h.ttrf ht]
  | false => rfl

/-! ### Questions about features -/

/-- A question that is refused without its feature and answered with it is refused exactly without it. -/
theorem refused_iff_absent {α : Type} {feature : Bool} {answer : Except Refusal α}
    (hrefused : feature = false → answer = .error .controlNotDefined) (hdefined : feature = true → ∃ a, answer = .ok a) :
    feature = false ↔ answer = .error .controlNotDefined := by
  refine ⟨hrefused, fun he => Bool.eq_false_iff.2 fun hf => ?_⟩
  obtain ⟨a, ha⟩ := hdefined hf
  rw [ha] at he
  cases he

/-! ### STE -/

/-- R124, where the Effective value is not the stored one. -/
theorem effectiveSTE_noEL3_secure {cfg : Config} {env : Env} (ht : cfg.featTrace84 = true) (h3 : cfg.haveEL3 = false)
    (hs : env.isSecure = true) (w : Word) : effectiveSTE cfg env w = .ok 1#1 := by
  simp [effectiveSTE, ht, h3, hs]

theorem effectiveSTE_stored {cfg : Config} {env : Env} (ht : cfg.featTrace84 = true)
    (h : cfg.haveEL3 = true ∨ env.isSecure = false) (w : Word) : effectiveSTE cfg env w = .ok (ste w) := by
  obtain h3 | hs := h
  · simp [effectiveSTE, ht, h3]
  · simp [effectiveSTE, ht, hs]

theorem effectiveSTE_refused {cfg : Config} (ht : cfg.featTrace84 = false) (env : Env) (w : Word) :
    effectiveSTE cfg env w = .error .controlNotDefined := by
  simp [effectiveSTE, ht]

theorem effectiveSTE_defined {cfg : Config} (ht : cfg.featTrace84 = true) (env : Env) (w : Word) :
    ∃ e, effectiveSTE cfg env w = .ok e := by
  simp [effectiveSTE, ht]

theorem secureTraceProhibited_refused {cfg : Config} (ht : cfg.featTrace84 = false) (env : Env) (w : Word) :
    secureTraceProhibitedBySDCR cfg env w = .error .controlNotDefined := by
  rw [secureTraceProhibitedBySDCR, secureTraceVerdict, effectiveSTE_refused ht]

theorem effectiveSTE_congr {cfg : Config} {v w : Word} (h : SameFields cfg v w) (env : Env) :
    effectiveSTE cfg env v = effectiveSTE cfg env w := by
  unfold effectiveSTE
  cases ht : cfg.featTrace84 with
  | true => rw [h.ste ht]
  | false => rfl

/-- R123: in Non-secure state the bit has no effect. -/
theorem secureTraceVerdict_nonsecure {cfg : Config} {env : Env} {w : Word} {e : Bit}
    (he : effectiveSTE cfg env w = .ok e) (hs : env.isSecure = false) :
    secureTraceVerdict cfg env w = .ok .noEffect := by
  simp [secureTraceVerdict, he, hs]

/-- R123, the `0b1` row. -/
theorem secureTraceVerdict_one {cfg : Config} {env : Env} {w : Word} (he : effectiveSTE cfg env w = .ok 1#1)
    (hs : env.isSecure = true) : secureTraceVerdict cfg env w = .ok .leftToTraceFilter := by
  simp [secureTraceVerdict, he, hs]

/-- R123, the `0b0` row. -/
theorem secureTraceVerdict_zero {cfg : Config} {env : Env} {w : Word} (he : effectiveSTE cfg env w = .ok 0#1)
    (hs : env.isSecure = true) :
    secureTraceVerdict cfg env w = .ok (if env.authOverrideSTE then .overridden else .prohibited) := by
  simp [secureTraceVerdict, he, hs]

theorem secureTraceProhibited_of_verdict {cfg : Config} {env : Env} {w : Word} {v : TraceVerdict}
    (h : secureTraceVerdict cfg env w = .ok v) : secureTraceProhibitedBySDCR cfg env w = .ok (v == .prohibited) := by
  simp [secureTraceProhibitedBySDCR, h]

/-- R123: trace is prohibited by one row, in one Security state. -/
theorem secureTraceProhibited_of_effective {cfg : Config} {env : Env} {w : Word} {e : Bit}
    (he : effectiveSTE cfg env w = .ok e) :
    secureTraceProhibitedBySDCR cfg env w =
      .ok (decide (env.isSecure = true ∧ e = 0#1 ∧ env.authOverrideSTE = false)) := by
  cases hs : env.isSecure with
  | false =>
    rw [secureTraceProhibited_of_verdict (secureTraceVerdict_nonsecure he hs)]
    rfl
  | true =>
    by_cases h1 : e = 1#1
    · subst h1
      rw [secureTraceProhibited_of_verdict (secureTraceVerdict_one he hs)]
      rfl
    · obtain rfl := bit_ne_one_iff.1 h1
      rw [secureTraceProhibited_of_verdict (secureTraceVerdict_zero he hs)]
      cases env.authOverrideSTE <;> rfl

theorem secureTraceVerdict_congr {cfg : Config} {v w : Word} (h : SameFields cfg v w) (env : Env) :
    secureTraceVerdict cfg env v = secureTraceVerdict cfg env w := by
  rw [secureTraceVerdict, effectiveSTE_congr h, secureTraceVerdict]

theorem secureTraceProhibited_congr {cfg : Config} {v w : Word} (h : SameFields cfg v w) (env : Env) :
    secureTraceProhibitedBySDCR cfg env v = secureTraceProhibitedBySDCR cfg env w := by
  rw [secureTraceProhibitedBySDCR, secureTraceVerdict_congr h, secureTraceProhibitedBySDCR]

/-! ### SPME -/

theorem effectiveSPME_refused {cfg : Config} (hpmu : cfg.featPMUv3 = false) (env : Env) (w : Word) :
    effectiveSPME cfg env w = .error .controlNotDefined := by
  simp [effectiveSPME, hpmu]

theorem effectiveSPME_defined {cfg : Config} (hpmu : cfg.featPMUv3 = true) (env : Env) (w : Word) :
    ∃ e, effectiveSPME cfg env w = .ok e := by
  simp [effectiveSPME, hpmu]

theorem secureEventCounting_refused {cfg : Config} (hpmu : cfg.featPMUv3 = false) (env : Env) (w : Word) :
    secureEventCountingProhibitedBySDCR cfg env w = .error .controlNotDefined := by
  rw [secureEventCountingProhibitedBySDCR, effectiveSPME_refused hpmu]

/-- Where PMUv3 is implemented SPME has a description, and its question an answer. -/
theorem secureEventCounting_defined {cfg : Config} (hpmu : cfg.featPMUv3 = true) (env : Env) (w : Word) :
    ∃ b, secureEventCountingProhibitedBySDCR cfg env w = .ok b := by
  obtain ⟨e, he⟩ := effectiveSPME_defined hpmu env w
  cases h82 : cfg.featDebug82 with
  | true => exact ⟨_, secureEventCounting_of_a (spmeDescription_eq_a hpmu h82) he⟩
  | false => exact ⟨_, secureEventCounting_of_b (spmeDescription_eq_b hpmu h82) he⟩

theorem effectiveSPME_congr {cfg : Config} {v w : Word} (h : cfg.featPMUv3 = true → spme v = spme w) (env : Env) :
    effectiveSPME cfg env v = effectiveSPME cfg env w := by
  unfold effectiveSPME
  cases hpmu : cfg.featPMUv3 with
  | true => rw [h hpmu]
  | false => rfl

theorem secureEventCounting_congr {cfg : Config} {v w : Word} (h : cfg.featPMUv3 = true → spme v = spme w) (env : Env) :
    secureEventCountingProhibitedBySDCR cfg env v = secureEventCountingProhibitedBySDCR cfg env w := by
  rw [secureEventCountingProhibitedBySDCR, effectiveSPME_congr h, secureEventCountingProhibitedBySDCR]

/-! ### SPD -/

theorem effectiveSPD_of_valid {w : Word} (h : spd w ≠ 0b01#2) : effectiveSPD w = spd w := if_neg h

/-- 10_state.md R33. -/
theorem effectiveSPD_of_reserved {w : Word} (h : spd w = 0b01#2) : effectiveSPD w = 0b00#2 := if_pos h

theorem effectiveSPD_eq_zero {w : Word} (h : spd w = 0b00#2 ∨ spd w = 0b01#2) : effectiveSPD w = 0b00#2 := by
  obtain h | h := h
  · rw [effectiveSPD_of_valid (by simp [h]), h]
  · exact effectiveSPD_of_reserved h

theorem securePrivDebug_of_legacy {w : Word} (h : effectiveSPD w = 0b00#2) (env : Env) :
    securePrivDebugExceptionsEnabledBySDCR env w = env.authSecurePrivDebug := if_pos h

theorem securePrivDebug_of_not_legacy {w : Word} (h : effectiveSPD w ≠ 0b00#2) (env : Env) :
    securePrivDebugExceptionsEnabledBySDCR env w = (effectiveSPD w == 0b11#2) := if_neg h

/-- The outputs of SPD depend on the value the hardware behaves by. -/
theorem securePrivDebug_congr {v w : Word} (h : effectiveSPD v = effectiveSPD w) (env : Env) :
    securePrivDebugExceptionsEnabledBySDCR env v = securePrivDebugExceptionsEnabledBySDCR env w := by
  rw [securePrivDebugExceptionsEnabledBySDCR, h, securePrivDebugExceptionsEnabledBySDCR]

theorem secureEL0Debug_congr {v w : Word} (h : effectiveSPD v = effectiveSPD w) (env : Env) :
    secureEL0DebugExceptionsEnabledBySDCR env v = secureEL0DebugExceptionsEnabledBySDCR env w := by
  rw [secureEL0DebugExceptionsEnabledBySDCR, securePrivDebug_congr h, secureEL0DebugExceptionsEnabledBySDCR]

theorem debugException_congr {v w : Word} (h : effectiveSPD v = effectiveSPD w) (env : Env) (kind : DebugException)
    (source : DebugSource) :
    debugExceptionEnabledBySDCR env v kind source = debugExceptionEnabledBySDCR env w kind source := by
  cases kind with
  | breakpointInstruction => rfl
  | other => simp only [debugExceptionEnabledBySDCR, securePrivDebug_congr h, secureEL0Debug_congr h]

theorem SameFields.effectiveSPD {cfg : Config} {v w : Word} (h : SameFields cfg v w) :
    effectiveSPD v = effectiveSPD w := by
  rw [Machine.effectiveSPD, h.spd, Machine.effectiveSPD]

theorem spd_and_not (w : Word) : spd (w &&& ~~~ 0x0000C000#32) = 0b00#2 := by
  have hm : (~~~ 0x0000C000#32 : Word).extractLsb' 14 2 = 0#2 := by decide
  rw [spd, BitVec.extractLsb'_and, hm, BitVec.and_zero]

/-- With SPD cleared the effective value is that of the reserved one. -/
theorem effectiveSPD_and_not {w : Word} (h : spd w = 0b01#2) :
    effectiveSPD w = effectiveSPD (w &&& ~~~ 0x0000C000#32) := by
  rw [effectiveSPD_of_reserved h, effectiveSPD_eq_zero (.inl (spd_and_not w))]

/-! ### Every field 0 -/

theorem pmccntrProhibited_zero (cfg : Config) (env : Env) : pmccntrProhibitedBySCCD cfg env 0#32 = false := by
  simp [pmccntrProhibitedBySCCD, sccd]

theorem extPMUAccess_zero (cfg : Config) (env : Env) (nonsecure : Bool) :
    extPMUAccessPermittedBySDCR cfg env 0#32 nonsecure = true := by
  unfold extPMUAccessPermittedBySDCR
  split <;> simp [epmad]

theorem extDebugAccess_zero (cfg : Config) (env : Env) (target : DebugTarget) (nonsecure : Bool) :
    extDebugAccessPermittedBySDCR cfg env 0#32 target nonsecure = true := by
  unfold extDebugAccessPermittedBySDCR
  split <;> simp [edad]

theorem traceFilterTrapped_zero (cfg : Config) (env : Env) : traceFilterAccessTrappedBySDCR cfg env 0#32 = false := by
  simp [traceFilterAccessTrappedBySDCR, ttrf]

theorem secureTraceProhibited_zero {cfg : Config} (ht : cfg.featTrace84 = true) (h3 : cfg.haveEL3 = true) (env : Env) :
    secureTraceProhibitedBySDCR cfg env 0#32 = .ok (env.isSecure && !env.authOverrideSTE) := by
  rw [secureTraceProhibited_of_effective (effectiveSTE_stored ht (.inl h3) 0#32)]
  simp [ste]

theorem secureEventCounting_zero_a {cfg : Config} (hpmu : cfg.featPMUv3 = true) (h82 : cfg.featDebug82 = true)
    (h3 : cfg.haveEL3 = true) (env : Env) :
    secureEventCountingProhibitedBySDCR cfg env 0#32 = .ok env.isSecure := by
  rw [secureEventCounting_of_a (spmeDescription_eq_a hpmu h82) (effectiveSPME_stored hpmu (.inl h3) 0#32)]
  simp [spme]

theorem secureEventCounting_zero_b {cfg : Config} (hpmu : cfg.featPMUv3 = true) (h82 : cfg.featDebug82 = false)
    (h3 : cfg.haveEL3 = true) (env : Env) :
    secureEventCountingProhibitedBySDCR cfg env 0#32 = .ok (env.isSecure && !env.extSecureNoninvasiveDebugEnabled) := by
  rw [secureEventCounting_of_b (spmeDescription_eq_b hpmu h82) (effectiveSPME_stored hpmu (.inl h3) 0#32)]
  simp [spme]

end Sys2Proof.Machine
end

section
/-!
CERTIFICATE. The control outputs (60_exceptions.md R112 to R115, R118, R120 to R124, R129 to R134; 10_state.md R33, R36;
70_reset_and_hazards.md R141).
-/

namespace Sys2Proof.Machine

open Sys2Proof

/-- Settles O40: an event counter is SPME's, and SPME is not bit 23. -/
theorem sccdProhibitsTheCycleCounterOnly : Obligations.SccdProhibitsTheCycleCounterOnly := by
  refine ⟨fun cfg env w => ⟨pmccntrProhibited_iff, rfl⟩, fun cfg env v w h => ?_⟩
  exact secureEventCounting_congr (fun _ => bit_eq_iff.2 (getLsbD_eq_of_and_eq h (by decide))) env

/-- Settles O41: EPMAD's description, then its bit. -/
theorem epmadRestrictsTheExternalDebugger : Obligations.EpmadRestrictsTheExternalDebugger := by
  intro cfg env w nonsecure
  refine ⟨fun h84 hpmu hext => ?_, fun h84 hpmu hext => ?_, fun h => ?_⟩
  · exact extPMUAccess_of_a (epmadDescription_eq_a h84 hpmu hext) env w nonsecure
  · exact extPMUAccess_of_b (epmadDescription_eq_b h84 hpmu hext) env w nonsecure
  · exact extPMUAccess_of_absent (epmadDescription_eq_absent h) env w nonsecure

/-- Settles O43: EDAD's third description, then the targets it names. -/
theorem edadWithoutDebugExtensions : Obligations.EdadWithoutDebugExtensions := by
  intro cfg env w target nonsecure h84 h82
  have hdesc := edadDescription_eq_c h84 h82
  rw [extDebugAccess_not_permitted_of_c hdesc, edad_eq_one, edadCovers_iff_of_c hdesc]

/-- Settles O44. -/
theorem ttrfTrapsOutsideMonitorMode : Obligations.TtrfTrapsOutsideMonitorMode :=
  fun _ _ _ => traceFilterTrapped_iff

/-- Settles O45: the Effective value, then the row of R123. -/
theorem steGovernsTraceInSecureState : Obligations.SteGovernsTraceInSecureState := by
  intro cfg env w ht
  refine ⟨fun h3 hs => effectiveSTE_noEL3_secure ht h3 hs w, fun h => effectiveSTE_stored ht h w, fun e he =>
    ⟨secureTraceProhibited_of_effective he, fun hs h1 => ?_, fun hs h0 ho => ?_, secureTraceVerdict_nonsecure he⟩⟩
  · exact secureTraceVerdict_one (h1 ▸ he) hs
  · rw [secureTraceVerdict_zero (h0 ▸ he) hs, ho]
    rfl

/-- Settles O47: an output is an answer where its Effective value is, and refused where that is refused. -/
theorem questionsAboutAbsentFeaturesAreRefused : Obligations.QuestionsAboutAbsentFeaturesAreRefused := by
  intro cfg env w
  refine ⟨refused_iff_absent (effectiveSTE_refused · env w) (effectiveSTE_defined · env w),
    refused_iff_absent (secureTraceProhibited_refused · env w) fun ht => ?_,
    refused_iff_absent (effectiveSPME_refused · env w) (effectiveSPME_defined · env w),
    refused_iff_absent (secureEventCounting_refused · env w) (secureEventCounting_defined · env w)⟩
  obtain ⟨e, he⟩ := effectiveSTE_defined ht env w
  exact ⟨_, secureTraceProhibited_of_effective he⟩

/-- Settles O48. -/
theorem spdGovernsSecureDebugExceptions : Obligations.SpdGovernsSecureDebugExceptions := by
  refine ⟨fun env w => ⟨fun h => ?_, fun h => ?_, fun h => ?_, fun _ => rfl, fun hs kind source => ?_, fun hs => ?_⟩,
    fun cfg h => by simp [spdGovernedLevel, h]⟩
  · exact securePrivDebug_of_legacy (effectiveSPD_eq_zero h) env
  · have he : effectiveSPD w = 0b10#2 := (effectiveSPD_of_valid (by simp [spd, h])).trans h
    rw [securePrivDebug_of_not_legacy (by simp [he]), he]
    rfl
  · have he : effectiveSPD w = 0b11#2 := (effectiveSPD_of_valid (by simp [spd, h])).trans h
    rw [securePrivDebug_of_not_legacy (by simp [he]), he]
    rfl
  · cases kind <;> simp [debugExceptionEnabledBySDCR, hs]
  · simp [debugExceptionEnabledBySDCR, hs]

/-- Settles O49. -/
theorem secureEL0DebugFollowsPrivilegedOrSuiden : Obligations.SecureEL0DebugFollowsPrivilegedOrSuiden := by
  intro env w
  refine ⟨fun h => ?_, fun h => ?_, fun hs => ?_⟩
  · simp [secureEL0DebugExceptionsEnabledBySDCR, h]
  · simp [secureEL0DebugExceptionsEnabledBySDCR, h]
  · simp [debugExceptionEnabledBySDCR, hs]

/-- Settles O50: a write takes SPD as it is, and the outputs depend on its effective value. -/
theorem reservedSpdBehavesAsLegacyMode : Obligations.ReservedSpdBehavesAsLegacyMode := by
  refine ⟨fun s i k hw hd hk hc hel hb hspd => ?_, fun env w hspd => ?_, fun s i k b hw hd hk hc hel hspd hb => ?_⟩
  · exact ⟨_, exec_write_at_el3 hw hd hk hc hel hb, (spd_writeValue _ _).trans hspd⟩
  · have he := effectiveSPD_and_not hspd
    exact ⟨securePrivDebug_congr he env, secureEL0Debug_congr he env, debugException_congr he env⟩
  · refine ⟨_, exec_read_at_el3 hw hd hk hc hel, ?_, by simp⟩
    rw [State.advancePc_getReg, readTransfer_getReg_self]
    exact spd_readSDCR_of_readback hspd hb

/-- Settles O52: every output is a function of the fields, and the mask covers them. -/
theorem controlsIgnoreRes0Bits : Obligations.ControlsIgnoreRes0Bits := by
  intro cfg env v w h
  have hf := sameFields_of_wmask h
  refine ⟨pmccntrProhibited_congr hf env, extPMUAccess_congr hf env, extDebugAccess_congr hf env,
    traceFilterTrapped_congr hf env, secureTraceVerdict_congr hf env, secureTraceProhibited_congr hf env,
    secureEventCounting_congr hf.spme env, fun counter => ?_, securePrivDebug_congr hf.effectiveSPD env,
    secureEL0Debug_congr hf.effectiveSPD env, debugException_congr hf.effectiveSPD env⟩
  cases counter with
  | cycleCounter => exact congrArg Except.ok (pmccntrProhibited_congr hf env)
  | eventCounter => exact secureEventCounting_congr hf.spme env

/-- Settles O51: after the reset SDCR has the fields of 0, and every output is a function of the fields. -/
theorem controlsJustAfterReset : Obligations.ControlsJustAfterReset := by
  intro s rest ha h3 h32
  obtain ⟨v, n, hr⟩ := State.applyReset_cases { s with agenda := rest }
  have hzero : v &&& resetDrawMask s.cfg &&& wmask s.cfg = 0#32 &&& wmask s.cfg := by
    rw [BitVec.and_assoc, resetDrawMask_fields h3 h32, BitVec.and_zero, BitVec.zero_and]
  have hf := sameFields_of_wmask hzero
  have hspd : effectiveSPD (v &&& resetDrawMask s.cfg) = 0b00#2 := hf.effectiveSPD.trans (by decide)
  exact ⟨_, (step_event ha).trans (congrArg _ hr), rfl, fun env =>
    ⟨(pmccntrProhibited_congr hf env).trans (pmccntrProhibited_zero _ _),
      fun ns => (extPMUAccess_congr hf env ns).trans (extPMUAccess_zero _ _ _),
      fun target ns => (extDebugAccess_congr hf env target ns).trans (extDebugAccess_zero _ _ _ _),
      (traceFilterTrapped_congr hf env).trans (traceFilterTrapped_zero _ _),
      fun ht => (secureTraceProhibited_congr hf env).trans (secureTraceProhibited_zero ht h3 env),
      fun hpmu h82 => (secureEventCounting_congr hf.spme env).trans (secureEventCounting_zero_a hpmu h82 h3 env),
      fun hpmu h82 => (secureEventCounting_congr hf.spme env).trans (secureEventCounting_zero_b hpmu h82 h3 env),
      securePrivDebug_of_legacy hspd env,
      congrArg (· || env.suiden == 1#1) (securePrivDebug_of_legacy hspd env), fun _ => rfl, if_pos h32⟩⟩

end Sys2Proof.Machine
end
